-- ==== Sys2Proof/Word.lean ====
section
/-! DEFINITION. Word.lean: the widths of the UM core block (spec/00_scope.md R5, R7). -/

namespace Sys2Proof

/-- The 32-bit unsigned unit of memory, registers and instruction encoding (R5, glossary "Word, platter").
Its arithmetic is modulo 2^32 (R62); no Word is ever read as signed (R7). -/
abbrev Word := BitVec 32

/-- The byte of an Output or an Input at the block's boundary (R39, R76, R78). -/
abbrev Byte := BitVec 8

/-- A register index: 3 bits, taken from an instruction field (R5, R14). -/
abbrev RegIdx := BitVec 3

/-- The opcode field, 4 bits (R5, R51). -/
abbrev Opcode := BitVec 4

/-- The Orthography immediate, 25 unsigned bits (R5, R53). -/
abbrev Imm := BitVec 25

end Sys2Proof
end

