-- ==== Sys2Proof/Syntax.lean ====
section
/-! DEFINITION. Syntax.lean: the fourteen instructions of the UM (spec/30_encoding.md R54; spec/opcode_table.json). -/

namespace Sys2Proof

/-- One constructor per row of spec/opcode_table.json, holding exactly the fields the row uses: "Fields an opcode does
not use (rule R55) are returned but read by no rule" (R58, log 14). The bounds of R5 (register index 0 to 7, immediate
below 2^25) are the types' own. -/
inductive Instr where
  /-- CMOV rA, rB, rC: ConditionalMove, opcode 0 (R64). -/
  | cmov (a b c : RegIdx)
  /-- AIDX rA, rB, rC: ArrayIndex, opcode 1 (R70). -/
  | aidx (a b c : RegIdx)
  /-- AAMD rA, rB, rC: ArrayAmendment, opcode 2 (R71). -/
  | aamd (a b c : RegIdx)
  /-- ADD rA, rB, rC: Addition, opcode 3 (R65). -/
  | add (a b c : RegIdx)
  /-- MUL rA, rB, rC: Multiplication, opcode 4 (R66). -/
  | mul (a b c : RegIdx)
  /-- DIV rA, rB, rC: Division, opcode 5 (R67). -/
  | div (a b c : RegIdx)
  /-- NAND rA, rB, rC: NotAnd, opcode 6 (R68). -/
  | nand (a b c : RegIdx)
  /-- HALT: Halt, opcode 7 (R75). -/
  | halt
  /-- ALLOC rB, rC: Allocation, opcode 8 (R72). -/
  | alloc (b c : RegIdx)
  /-- ABAND rC: Abandonment, opcode 9 (R73). -/
  | aband (c : RegIdx)
  /-- OUT rC: Output, opcode 10 (R76). -/
  | out (c : RegIdx)
  /-- IN rC: Input, opcode 11 (R77); `in` is a word of Lean, hence the constructor's name. -/
  | inp (c : RegIdx)
  /-- LOADP rB, rC: LoadProgram, opcode 12 (R74). -/
  | loadp (b c : RegIdx)
  /-- ORTHO rA, imm: Orthography, opcode 13 (R69). -/
  | ortho (a : RegIdx) (imm : Imm)
deriving DecidableEq, Repr

/-- All that the decoder returns of a Word, used or not: the opcode and the fields of R50 to R53
(`Instr(op, a, b, c, imm)` of R9). -/
structure Fields where
  op : Opcode
  a : RegIdx
  b : RegIdx
  c : RegIdx
  imm : Imm
deriving DecidableEq, Repr

/-- What the decoder answers for a Word that is no instruction: `Invalid(op)` (R9, R56). -/
inductive DecodeError where
  /-- The Word has opcode 14 or 15; the step that fetched it raises DecodeFault(INVALID_OPCODE). -/
  | invalid (op : Opcode)
deriving DecidableEq, Repr

end Sys2Proof
end

