-- ==== Sys2Proof/Config.lean ====
section
/-! DEFINITION. Config.lean: the open parameters of the block (spec/00_scope.md R6; spec/92_eei_decisions.md D9, D22).

The spec leaves no result of an instruction open, so there is no free value here (spec/93_implementation_defined.md). -/

namespace Sys2Proof

/-- The two capacity parameters "the model takes as arguments" (R6). They are fixed for a block: no transition changes
them. Every statement about all states is a statement about all their values (log 1). -/
structure Config where
  /-- MAX_STORAGE_WORDS: the Words the bank selector can hold across all live banks; `none` is unbounded. -/
  maxStorageWords : Option Nat
  /-- MAX_BANKS: the bank slots the table can hold; a block has 1 < MAX_BANKS <= 2^32 (`Config.wellFormed`). -/
  maxBanks : Nat
deriving DecidableEq, Repr

/-- Both parameters unbounded, MAX_BANKS = 2^32 (4294967296): the setting that "follows the source exactly" (R6). -/
def Config.unbounded : Config := { maxStorageWords := none, maxBanks := 4294967296 }

end Sys2Proof
end

