-- ==== Sys2Proof/WellFormed.lean ====
section
/-! DEFINITION. WellFormed.lean: the checks on what is handed to the block: an instruction's fields, the parameters and a
program image. A term of `Instr` needs no check: its register indices are 3-bit and its immediate 25-bit values by type
(R5), and every such value is legal (R55, R57), so every term of `Instr` is well-formed. -/

namespace Sys2Proof

/-- The fields stand for an instruction: "every word with opcode 0 to 13 is a legal instruction (rule R55), and every
word with opcode 14 or 15 is illegal" (R57). -/
def Fields.wellFormed (f : Fields) : Bool := decide (f.op.toNat ≤ 13)

/-- 1 < MAX_BANKS <= 2^32 = 4294967296 (R6). MAX_STORAGE_WORDS may be any natural number or unbounded. -/
def Config.wellFormed (c : Config) : Bool := decide (1 < c.maxBanks) && decide (c.maxBanks ≤ 4294967296)

/-- "The image passed to `reset` has at most 2^32 - 1 Words", 4294967295 (R97). -/
def imageWellFormed (image : List Word) : Bool := decide (image.length ≤ 4294967295)

end Sys2Proof
end

