-- ==== Sys2Proof/Decode.lean ====
section
/-! DEFINITION. Decode.lean: the decoder of spec/30_encoding.md R50 to R58 and, after it, the encoder of R59. -/

namespace Sys2Proof

/-- `op = w[31:28]` (R51). -/
def opcodeOf (w : Word) : Opcode := w.extractLsb' 28 4

/-- Register field A of the standard format, `w[8:6]` (R52). -/
def stdA (w : Word) : RegIdx := w.extractLsb' 6 3

/-- Register field B of the standard format, `w[5:3]` (R52). -/
def stdB (w : Word) : RegIdx := w.extractLsb' 3 3

/-- Register field C of the standard format, `w[2:0]` (R52). -/
def stdC (w : Word) : RegIdx := w.extractLsb' 0 3

/-- Register field A of the orthography format, `w[27:25]` (R53). -/
def orthoA (w : Word) : RegIdx := w.extractLsb' 25 3

/-- The immediate of the orthography format, `w[24:0]` (R53); widened only where it is used (`zextImm`). -/
def orthoImm (w : Word) : Imm := w.extractLsb' 0 25

/-- The fields the decoder returns for a Word (R58): field A comes from the orthography position for opcode 13 only. -/
def fieldsOf (w : Word) : Fields :=
  { op := opcodeOf w
    a := if opcodeOf w = 13 then orthoA w else stdA w
    b := stdB w
    c := stdC w
    imm := orthoImm w }

/-- The opcode map (R54): the instruction that decoded fields stand for, or `Invalid(op)` for 14 and 15 (R56). -/
def instrOf (f : Fields) : Except DecodeError Instr :=
  match f.op.toNat with
  | 0 => .ok (.cmov f.a f.b f.c)
  | 1 => .ok (.aidx f.a f.b f.c)
  | 2 => .ok (.aamd f.a f.b f.c)
  | 3 => .ok (.add f.a f.b f.c)
  | 4 => .ok (.mul f.a f.b f.c)
  | 5 => .ok (.div f.a f.b f.c)
  | 6 => .ok (.nand f.a f.b f.c)
  | 7 => .ok .halt
  | 8 => .ok (.alloc f.b f.c)
  | 9 => .ok (.aband f.c)
  | 10 => .ok (.out f.c)
  | 11 => .ok (.inp f.c)
  | 12 => .ok (.loadp f.b f.c)
  | 13 => .ok (.ortho f.a f.imm)
  | _ => .error (.invalid f.op)

/-- The decoder, "a pure function of one Word with no state and no side effects", total on every Word (R58). -/
def decode (w : Word) : Except DecodeError Instr := instrOf (fieldsOf w)

/-- The bits that an opcode's words may hold at any value (R55): 27..9 for opcodes 0 to 6, 27..0 for 7, 27..6 for 8 and
12, 27..3 for 9, 10 and 11, none for 13. Opcodes 14 and 15 have no instruction; no bit of theirs is called ignored. -/
def ignoredMask (op : Opcode) : Word :=
  match op.toNat with
  | 0 | 1 | 2 | 3 | 4 | 5 | 6 => 0x0FFFFE00
  | 7 => 0x0FFFFFFF
  | 8 | 12 => 0x0FFFFFC0
  | 9 | 10 | 11 => 0x0FFFFFF8
  | _ => 0

/-- The opcode of an instruction (R54). -/
def Instr.opcode : Instr → Opcode
  | .cmov _ _ _ => 0
  | .aidx _ _ _ => 1
  | .aamd _ _ _ => 2
  | .add _ _ _ => 3
  | .mul _ _ _ => 4
  | .div _ _ _ => 5
  | .nand _ _ _ => 6
  | .halt => 7
  | .alloc _ _ => 8
  | .aband _ => 9
  | .out _ => 10
  | .inp _ => 11
  | .loadp _ _ => 12
  | .ortho _ _ => 13

/-- `EncStd(op, a, b, c) = (op << 28) | (a << 6) | (b << 3) | c` (R59). -/
def encStd (op : Opcode) (a b c : RegIdx) : Word :=
  (op.setWidth 32 <<< 28) ||| (a.setWidth 32 <<< 6) ||| (b.setWidth 32 <<< 3) ||| c.setWidth 32

/-- `EncOrtho(a, v) = (13 << 28) | (a << 25) | v` (R59). -/
def encOrtho (a : RegIdx) (v : Imm) : Word :=
  ((13 : Word) <<< 28) ||| (a.setWidth 32 <<< 25) ||| v.setWidth 32

/-- The encoder: the Word of an instruction, with zero in every ignored bit (R59). -/
def encode : Instr → Word
  | .cmov a b c => encStd 0 a b c
  | .aidx a b c => encStd 1 a b c
  | .aamd a b c => encStd 2 a b c
  | .add a b c => encStd 3 a b c
  | .mul a b c => encStd 4 a b c
  | .div a b c => encStd 5 a b c
  | .nand a b c => encStd 6 a b c
  | .halt => encStd 7 0 0 0
  | .alloc b c => encStd 8 0 b c
  | .aband c => encStd 9 0 0 c
  | .out c => encStd 10 0 0 c
  | .inp c => encStd 11 0 0 c
  | .loadp b c => encStd 12 0 b c
  | .ortho a imm => encOrtho a imm

/-- The Word that spec/opcode_table.json's bits `w` of an `nbits`-bit row stand for: bit 0 is the Word's least
significant bit (R7), and bits above `nbits` are 0. Every instruction is one Word (R50). -/
def tableWord (nbits w : Nat) : Word := (BitVec.ofNat nbits w).setWidth 32

/-- The instruction the decoder reads from the opcode table's bits `w`; `none` where it answers `Invalid`. -/
def decodeTableWord (nbits w : Nat) : Option Instr := (decode (tableWord nbits w)).toOption

end Sys2Proof
end

