-- ==== Sys2Proof/Machine/State.lean ====
section
/-! DEFINITION. Machine/State.lean: the state of the block as plain data (spec/10_state.md R14 to R30), the faults
(spec/60_exceptions.md R79), the refusals, and the state after reset. -/

namespace Sys2Proof.Machine

/-- One slot's contents: a sequence of Words (R17), held as its length and the Words that are not 0. An unlisted offset
below `len` reads 0, which is what Alloc fills a bank with (R35). Canonical form (`Bank.wellFormed`): offsets strictly
rising and below `len`, no listed Word 0, so that equal contents are equal data (log 9). -/
structure Bank where
  len : Nat
  cells : List (Nat × Word)
deriving DecidableEq, Repr

/-- The bank selector's state (Memory Arena): the bank table, whose length is N, and the free list (R17, R19). The head
of `free` is the most recently pushed id (log 10). Liveness is not stored: R22 defines it from the two (`Memory.live`). -/
structure Memory where
  banks : List Bank
  free : List Word
deriving DecidableEq, Repr

/-- The nine causes of R79's table. A cause is raised by the operation its docstring names; the raising step ends in a
NEXT state whose run state is `faulted` (R80, `State.raise`), so no step answers `Host.Outcome.fault` (log 2). All are
safe: the spec states each of them. -/
inductive Fault where
  /-- DecodeFault(INVALID_OPCODE). Raised by the step when the fetched Word has opcode 14 or 15 (R56, R61). Safe. -/
  | invalidOpcode
  /-- MemoryFault(FETCH_OUT_OF_RANGE). Raised by `fetch` when the finger is not below len(bank 0) (R38). Safe. -/
  | fetchOutOfRange
  /-- MemoryFault(BANK_NOT_LIVE). Raised by `memRead`, `memWrite`, `replace0`: AIDX, AAMD, LOADP (R33, R34, R37). Safe. -/
  | bankNotLive
  /-- MemoryFault(OFFSET_OUT_OF_RANGE). Raised by `memRead`, `memWrite`: AIDX, AAMD (R33, R34). Safe. -/
  | offsetOutOfRange
  /-- MemoryFault(ABANDON_BANK0). Raised by `abandon`: ABAND of bank 0 (R36, conflict C3). Safe. -/
  | abandonBank0
  /-- MemoryFault(ABANDON_NOT_LIVE). Raised by `abandon`: ABAND of an id not live (R36). Safe. -/
  | abandonNotLive
  /-- ArithmeticFault(DIVIDE_BY_ZERO). Raised by DIV with x[c] = 0 (R67). Safe. -/
  | divideByZero
  /-- ResourceFault(STORAGE_EXHAUSTED). Raised by `alloc`, `replace0` at MAX_STORAGE_WORDS: ALLOC, LOADP (R84). Safe. -/
  | storageExhausted
  /-- ResourceFault(BANK_IDS_EXHAUSTED). Raised by `alloc` at MAX_BANKS: ALLOC (R84). Safe. -/
  | bankIdsExhausted
deriving DecidableEq, Repr

/-- The inputter token: "an opaque capability (wraps a register index)" that "can only be constructed by the engine and is
consumed exactly once" (R24). -/
structure Token where
  /-- The register index it wraps. -/
  reg : RegIdx
  /-- Which token it is: how many tokens the block had created before it. It tells a consumed token from a later one for
  the same register (R92, log 6); it reaches no register and no bank. -/
  serial : Nat
deriving DecidableEq, Repr

/-- The run state (R23). `Halted` and `Faulted` are terminal; `AwaitingInput(c)` is the only wait state (R94). -/
inductive RunState where
  /-- A step may be taken. -/
  | running
  /-- `AwaitingInput(c)`: an Input on register c = `token.reg` has executed; the block waits for `provideInput` with the
  token that this Input created (R24, R92). -/
  | awaitingInput (token : Token)
  /-- A Halt has executed. -/
  | halted
  /-- A step raised `cause` (its code and subcause: `Fault.code`, `Fault.subcause`) with the finger at `pos` when the
  step began, having fetched `word`, `none` where nothing was fetched (R80). -/
  | faulted (cause : Fault) (pos : Word) (word : Option Word)
deriving DecidableEq, Repr

/-- What a `step()` returns to the host (R13). -/
inductive StepResult where
  /-- Continue. -/
  | continues
  /-- Output(byte). -/
  | output (byte : Byte)
  /-- InputNeeded(token). -/
  | inputNeeded (token : Token)
  /-- Halted. -/
  | halted
  /-- Fault(code, subcause, at, word), as in `RunState.faulted`. -/
  | fault (cause : Fault) (pos : Word) (word : Option Word)
deriving DecidableEq, Repr

/-- Why a transaction has no transition. Every constructor is raised where the spec says the transaction is not enabled
("no transition: it is a protocol violation by the host, not a block behaviour", R91). -/
inductive Refusal where
  /-- Raised by an arm of `exec` whose instruction has no meaning yet: none in this model. Safe. -/
  | notModelled (mnemonic : String)
  /-- Raised by `step` in `AwaitingInput`: the host must call `provideInput` first (R91). Safe. -/
  | stepWhileAwaitingInput
  /-- Raised by `step` in `Halted`: "caller must stop stepping" (R91). Safe. -/
  | stepAfterHalt
  /-- Raised by `step` in `Faulted`: no transition but `reset` (R86, R91). Safe. -/
  | stepAfterFault
  /-- Raised by `provideInput` in a run state other than `AwaitingInput` (R92). Safe. -/
  | noInputPending
  /-- Raised by `provideInput` with a token that is not the run state's token (R78, R92). Safe. -/
  | notThePendingToken
  /-- Raised by reset with an image of more than 2^32 - 1 Words (R97). Safe. -/
  | imageTooLong
  /-- Raised by reset with an image that would exceed MAX_STORAGE_WORDS (R21, log 8). Safe. -/
  | imageOverStorage
  /-- Raised by every transaction but `reset` before the first reset (R99). Safe. -/
  | beforeFirstReset
deriving DecidableEq, Repr

/-- The block's state: "the register file, the finger, the bank selector's table and free list, and the run state with
its pending input token" (10_state.md), with the parameters and what the last step returned beside it. -/
structure State where
  /-- The capacity parameters (R6); changed by no transition (log 1). -/
  cfg : Config
  /-- r0 to r7 (R14). -/
  regs : Vector Word 8
  /-- The program counter, an offset in bank 0 (R15). -/
  finger : Word
  /-- The bank table and the free list (R17, R19). -/
  mem : Memory
  /-- The run state with the pending input token or the fault's record (R23, R24, R80). -/
  run : RunState
  /-- The model's own: what the last `step()` returned (R13), `none` before the first (log 4). -/
  result : Option StepResult
  /-- The model's own: the bytes of the Output steps since reset, in their order (R76, R105, log 4). -/
  outputs : List Byte
  /-- The model's own: how many inputter tokens the block has created, the next one's serial; a reset keeps it, so that no
  two tokens are ever the same (R24, R92, log 6). -/
  issued : Nat
deriving DecidableEq, Repr

/-- The block after `reset` with the empty image, which R100 calls legal, and unbounded parameters (R27 to R30, R96;
log 1, log 4, log 6, log 7). `resetWith` gives the state after reset with any image. -/
def State.reset : State :=
  { cfg := Config.unbounded
    regs := Vector.replicate 8 0
    finger := 0
    mem := { banks := [{ len := 0, cells := [] }], free := [] }
    run := .running
    result := none
    outputs := []
    issued := 0 }

end Sys2Proof.Machine
end

