-- ==== Sys2Proof/Machine/Flags.lean ====
section
/-! DEFINITION. Machine/Flags.lean: the conditions the block computes. It "has no flags, condition codes or predicates"
(spec/10_state.md R25): what stands here is the ALU's one-bit output (spec/00_scope.md R11), ConditionalMove's gate
(spec/40_alu.md R64), and the capacity comparison of spec/20_memory.md R35 and R37. -/

namespace Sys2Proof.Machine

/-- The ALU's operation select (R11). -/
inductive AluOp where
  | add
  | mul
  | div
  | nand
deriving DecidableEq, Repr

/-- `div_by_zero`, "1 exactly when the operation is DIV and y = 0" (R11, R62). -/
def divByZero (op : AluOp) (y : Word) : Bool :=
  match op with
  | .div => y == 0
  | .add | .mul | .nand => false

/-- The gate of ConditionalMove: the condition register is not 0 (R64). -/
def moveGate (condition : Word) : Bool := condition != 0

/-- `words > MAX_STORAGE_WORDS`, never so when the parameter is unbounded (R6, R35, R37). -/
def overStorage (cfg : Config) (words : Nat) : Bool :=
  match cfg.maxStorageWords with
  | none => false
  | some limit => decide (limit < words)

end Sys2Proof.Machine
end

