-- ==== Sys2Proof/Machine/Operands.lean ====
section
/-! DEFINITION. Machine/Operands.lean: every operand form of the instruction set: a register read or written
(spec/10_state.md R14), the immediate (spec/30_encoding.md R53), the byte of Output and Input (spec/20_memory.md R39). -/

namespace Sys2Proof.Machine

/-- `x[i]`: the Word register i holds (R8, R14). -/
def State.reg (s : State) (i : RegIdx) : Word := s.regs[i.toNat]'i.isLt

/-- `x[i] <- v` (R8). No register is hardwired or aliased (R14). -/
def State.setReg (s : State) (i : RegIdx) (v : Word) : State :=
  { s with regs := s.regs.set i.toNat v i.isLt }

/-- `zext_32` of the Orthography immediate: no sign extension, no scaling (R53, R69). -/
def zextImm (imm : Imm) : Word := imm.setWidth 32

/-- The byte of an Output: `x[c][7:0]` (R76, conflict C2). -/
def outputByte (v : Word) : Byte := v.extractLsb' 0 8

/-- The Word an Input's answer writes: the byte widened with zero bits, or all ones for end of input (R78). -/
def inputWord (v : Option Byte) : Word :=
  match v with
  | some byte => byte.setWidth 32
  | none => 0xFFFFFFFF

end Sys2Proof.Machine
end

