-- ==== Sys2Proof/Machine/Ops.lean ====
section
/-! DEFINITION. Machine/Ops.lean: the named operations over memory (spec/20_memory.md R32 to R38), the canonical form of
memory, and raising a fault (spec/60_exceptions.md R80, R81). -/

namespace Sys2Proof.Machine

/-! ## The Words of one bank -/

/-- The Word at offset `j`: 0 where none is listed (R35, log 9). -/
def cellsRead : List (Nat × Word) → Nat → Word
  | [], _ => 0
  | (i, u) :: rest, j => if i = j then u else cellsRead rest j

/-- Writes `v` at offset `j`, keeping the offsets rising; writing 0, what an unlisted offset reads, removes the entry. -/
def cellsWrite : List (Nat × Word) → Nat → Word → List (Nat × Word)
  | [], j, v => if v = 0 then [] else [(j, v)]
  | (i, u) :: rest, j, v =>
    if j < i then (if v = 0 then (i, u) :: rest else (j, v) :: (i, u) :: rest)
    else if i = j then (if v = 0 then rest else (j, v) :: rest)
    else (i, u) :: cellsWrite rest j v

/-- The canonical form of a bank's cells: offsets strictly rising, at least `lo`, below `len`, no Word 0. -/
def cellsWellFormed (lo len : Nat) : List (Nat × Word) → Bool
  | [] => true
  | (i, u) :: rest => decide (lo ≤ i) && decide (i < len) && (u != 0) && cellsWellFormed (i + 1) len rest

/-- The cells of a sequence of Words whose first stands at offset `lo`. -/
def cellsOfWords (lo : Nat) : List Word → List (Nat × Word)
  | [] => []
  | v :: rest => if v = 0 then cellsOfWords (lo + 1) rest else (lo, v) :: cellsOfWords (lo + 1) rest

/-! ## One bank -/

/-- The empty sequence: the contents of a freed slot (R36). -/
def Bank.empty : Bank := { len := 0, cells := [] }

/-- "n Words, each 0" (R35). -/
def Bank.zeros (n : Nat) : Bank := { len := n, cells := [] }

/-- The bank that holds these Words in order (R29). -/
def Bank.ofWords (ws : List Word) : Bank := { len := ws.length, cells := cellsOfWords 0 ws }

/-- `bank[j]`, for `j` below the bank's length (R33). -/
def Bank.read (b : Bank) (j : Nat) : Word := cellsRead b.cells j

/-- `bank[j] <- v`, for `j` below the bank's length, which does not change (R34, R17). -/
def Bank.write (b : Bank) (j : Nat) (v : Word) : Bank := { b with cells := cellsWrite b.cells j v }

/-- A bank has at most 2^32 - 1 = 4294967295 Words (R17) and its cells are in canonical form. -/
def Bank.wellFormed (b : Bank) : Bool := decide (b.len ≤ 4294967295) && cellsWellFormed 0 b.len b.cells

/-! ## The bank table and the free list -/

/-- N, the number of slots (R17). -/
abbrev Memory.size (m : Memory) : Nat := m.banks.length

/-- "A bank id k (a Word) is live exactly when k < N and k is not on the free list" (R22). -/
def Memory.live (m : Memory) (k : Word) : Bool := decide (k.toNat < m.size) && !m.free.contains k

/-- `bank[k]`: slot k's contents, empty where there is no such slot. -/
def Memory.bank (m : Memory) (k : Word) : Bank := m.banks.getD k.toNat Bank.empty

/-- Slot k's contents become `b`. -/
def Memory.setBank (m : Memory) (k : Word) (b : Bank) : Memory := { m with banks := m.banks.set k.toNat b }

/-- "The sum of the lengths of all live banks, bank 0 included" (R21). -/
def Memory.storageInUse (m : Memory) : Nat :=
  (m.banks.zipIdx.map fun p => if m.live (BitVec.ofNat 32 p.2) then p.1.len else 0).sum

/-- What R19 says of an id on the free list: it is in 1..N-1 and names a slot whose contents are empty. -/
def Memory.freeIdOk (m : Memory) (k : Word) : Bool :=
  (k != 0) && decide (k.toNat < m.size) && decide (m.bank k = Bank.empty)

/-- The canonical form of memory and the invariants of R17 to R20: 1 <= N <= 2^32 = 4294967296, every bank well-formed,
every id on the free list once and as R19 says. -/
abbrev Memory.wf (m : Memory) : Prop :=
  0 < m.size ∧ m.size ≤ 4294967296 ∧ m.banks.all Bank.wellFormed = true ∧ m.free.Nodup ∧
    m.free.all m.freeIdOk = true

/-- `MemRead((k, j), 1)` (R33): the bank check before the offset check (R83). -/
def memRead (m : Memory) (k j : Word) : Except Fault Word :=
  if m.live k then
    if j.toNat < (m.bank k).len then .ok ((m.bank k).read j.toNat) else .error .offsetOutOfRange
  else .error .bankNotLive

/-- `MemWrite((k, j), 1, v)` (R34); k = 0 writes the running program. -/
def memWrite (m : Memory) (k j v : Word) : Except Fault Memory :=
  if m.live k then
    if j.toNat < (m.bank k).len then .ok (m.setBank k ((m.bank k).write j.toNat v)) else .error .offsetOutOfRange
  else .error .bankNotLive

/-- `Alloc(n)` (R35): the storage check before the id check (R83); the most recently freed id, else a new slot. -/
def alloc (cfg : Config) (m : Memory) (n : Word) : Except Fault (Word × Memory) :=
  if overStorage cfg (m.storageInUse + n.toNat) then .error .storageExhausted
  else
    match m.free with
    | k :: rest => .ok (k, { banks := m.banks.set k.toNat (Bank.zeros n.toNat), free := rest })
    | [] =>
      if m.size = cfg.maxBanks then .error .bankIdsExhausted
      else .ok (BitVec.ofNat 32 m.size, { banks := m.banks ++ [Bank.zeros n.toNat], free := [] })

/-- `Free(k)`, the source's `abandon` (R36): the bank-0 check before the liveness check (R83). -/
def abandon (m : Memory) (k : Word) : Except Fault Memory :=
  if k = 0 then .error .abandonBank0
  else if m.live k then .ok { banks := m.banks.set k.toNat Bank.empty, free := k :: m.free }
  else .error .abandonNotLive

/-- `Replace0(k)`, for k != 0 (R37): the liveness check before the storage check (R83); bank k stays as it is. -/
def replace0 (cfg : Config) (m : Memory) (k : Word) : Except Fault Memory :=
  if m.live k then
    if overStorage cfg (m.storageInUse - (m.bank 0).len + (m.bank k).len) then .error .storageExhausted
    else .ok (m.setBank 0 (m.bank k))
  else .error .bankNotLive

/-- `Fetch(f)` (R38): the Word at offset f of bank 0. -/
def fetch (m : Memory) (f : Word) : Except Fault Word :=
  if f.toNat < (m.bank 0).len then .ok ((m.bank 0).read f.toNat) else .error .fetchOutOfRange

/-! ## Raising a fault -/

/-- The fault code of R79. -/
def Fault.code : Fault → Nat
  | .invalidOpcode => 1
  | .fetchOutOfRange | .bankNotLive | .offsetOutOfRange | .abandonBank0 | .abandonNotLive => 2
  | .divideByZero => 3
  | .storageExhausted | .bankIdsExhausted => 4

/-- The subcause's value of R79. -/
def Fault.subcause : Fault → Nat
  | .invalidOpcode | .fetchOutOfRange | .divideByZero | .storageExhausted => 1
  | .bankNotLive | .bankIdsExhausted => 2
  | .offsetOutOfRange => 3
  | .abandonBank0 => 4
  | .abandonNotLive => 5

/-- `raise F(subcause)` (R80): the run state becomes Faulted(code, subcause, at, word) and the step returns the fault;
registers, memory and finger stay as they are (R81). There is no vector to go to and nothing to return from (R86). -/
def State.raise (s : State) (f : Fault) (pos : Word) (word : Option Word) : State :=
  { s with run := .faulted f pos word, result := some (.fault f pos word) }

/-- The finger when the step began, seen from an arm: the step has set the finger to `at + 1` (R61). -/
def State.stepPos (s : State) : Word := s.finger - 1

/-- The Word the step fetched, seen from an arm that has changed nothing yet: bank 0 still holds it at `at` (log 3). -/
def State.stepWord (s : State) : Option Word := (fetch s.mem s.stepPos).toOption

/-- `raise` in an instruction's arm: the finger stays `at + 1` (R81). -/
def State.raiseInArm (s : State) (f : Fault) : State := s.raise f s.stepPos s.stepWord

/-- Goes on with a bank operation's result, or raises the fault it met. -/
def State.orRaise {α : Type} (s : State) (r : Except Fault α) (k : α → State) : State :=
  match r with
  | .ok v => k v
  | .error f => s.raiseInArm f

/-- Between decode and the arm: "advance `finger` by one" (R61); the step returns Continue unless the arm says otherwise. -/
def State.advance (s : State) : State := { s with finger := s.finger + 1, result := some .continues }

end Sys2Proof.Machine
end

