-- ==== Sys2Proof/Machine/Alu.lean ====
section
/-! DEFINITION. Machine/Alu.lean: the ALU function and the ALU and register instructions (spec/40_alu.md R62 to R69). -/

namespace Sys2Proof.Machine

/-- The ALU (R11, R62): the result, none where `div_by_zero` is 1 ("no quotient is produced"). -/
def alu (op : AluOp) (x y : Word) : Option Word :=
  if divByZero op y then none
  else
    match op with
    | .add => some (x + y)
    | .mul => some (x * y)
    | .div => some (x / y)
    | .nand => some (~~~(x &&& y))

/-- `x[a] <- ALU(op, x[b], x[c])`, or DIVIDE_BY_ZERO where the ALU gives no result (R62, R67). Both operands are read
before the register is written (R63). -/
def aluToReg (op : AluOp) (a b c : RegIdx) (s : State) : State :=
  match alu op (s.reg b) (s.reg c) with
  | some v => s.setReg a v
  | none => s.raiseInArm .divideByZero

/-- CMOV rA, rB, rC (R64): if x[c] != 0 then x[a] <- x[b]. -/
def execCmov (a b c : RegIdx) (s : State) : Host.Outcome State Fault Refusal :=
  .next (if moveGate (s.reg c) then s.setReg a (s.reg b) else s)

/-- ADD rA, rB, rC (R65): x[a] <- (x[b] + x[c]) mod 2^32. -/
def execAdd (a b c : RegIdx) (s : State) : Host.Outcome State Fault Refusal :=
  .next (aluToReg .add a b c s)

/-- MUL rA, rB, rC (R66): x[a] <- (x[b] * x[c]) mod 2^32. -/
def execMul (a b c : RegIdx) (s : State) : Host.Outcome State Fault Refusal :=
  .next (aluToReg .mul a b c s)

/-- DIV rA, rB, rC (R67): x[a] <- floor(x[b] / x[c]), unsigned; ArithmeticFault where x[c] = 0. -/
def execDiv (a b c : RegIdx) (s : State) : Host.Outcome State Fault Refusal :=
  .next (aluToReg .div a b c s)

/-- NAND rA, rB, rC (R68): x[a] <- ~(x[b] & x[c]). -/
def execNand (a b c : RegIdx) (s : State) : Host.Outcome State Fault Refusal :=
  .next (aluToReg .nand a b c s)

/-- ORTHO rA, imm (R69): x[a] <- zext_32(imm). -/
def execOrtho (a : RegIdx) (imm : Imm) (s : State) : Host.Outcome State Fault Refusal :=
  .next (s.setReg a (zextImm imm))

end Sys2Proof.Machine
end

