-- ==== Sys2Proof/Machine/Banks.lean ====
section
/-! DEFINITION. Machine/Banks.lean: the memory bank instructions (spec/41_memory_bank.md R70 to R74). -/

namespace Sys2Proof.Machine

/-- AIDX rA, rB, rC (R70): x[a] <- MemRead((x[b], x[c]), 1). -/
def execAidx (a b c : RegIdx) (s : State) : Host.Outcome State Fault Refusal :=
  .next (s.orRaise (memRead s.mem (s.reg b) (s.reg c)) fun v => s.setReg a v)

/-- AAMD rA, rB, rC (R71): MemWrite((x[a], x[b]), 1, x[c]). The bank id comes from field A here. -/
def execAamd (a b c : RegIdx) (s : State) : Host.Outcome State Fault Refusal :=
  .next (s.orRaise (memWrite s.mem (s.reg a) (s.reg b) (s.reg c)) fun m => { s with mem := m })

/-- ALLOC rB, rC (R72): x[b] <- Alloc(x[c]). -/
def execAlloc (b c : RegIdx) (s : State) : Host.Outcome State Fault Refusal :=
  .next (s.orRaise (alloc s.cfg s.mem (s.reg c)) fun r => State.setReg { s with mem := r.2 } b r.1)

/-- ABAND rC (R73): Free(x[c]). -/
def execAband (c : RegIdx) (s : State) : Host.Outcome State Fault Refusal :=
  .next (s.orRaise (abandon s.mem (s.reg c)) fun m => { s with mem := m })

/-- LOADP rB, rC (R74): if x[b] != 0 then Replace0(x[b]); finger <- x[c]. -/
def execLoadp (b c : RegIdx) (s : State) : Host.Outcome State Fault Refusal :=
  .next
    (if s.reg b = 0 then { s with finger := s.reg c }
     else s.orRaise (replace0 s.cfg s.mem (s.reg b)) fun m => { s with mem := m, finger := s.reg c })

end Sys2Proof.Machine
end

