-- ==== Sys2Proof/Machine/ControlIo.lean ====
section
/-! DEFINITION. Machine/ControlIo.lean: Halt and the I/O boundary instructions (spec/42_control_io.md R75 to R77). The
host's answer to an Input, R78, is `provideInput` in Machine/HostPort.lean. -/

namespace Sys2Proof.Machine

/-- HALT (R75): run <- Halted; return Halted. -/
def execHalt (s : State) : Host.Outcome State Fault Refusal :=
  .next { s with run := .halted, result := some .halted }

/-- OUT rC (R76): return Output(x[c][7:0]); no register, bank or run state changes. -/
def execOut (c : RegIdx) (s : State) : Host.Outcome State Fault Refusal :=
  .next
    { s with result := some (.output (outputByte (s.reg c))), outputs := s.outputs ++ [outputByte (s.reg c)] }

/-- The token an Input on register c creates now: none before it has its serial (R24, R77, log 6). -/
def State.newToken (s : State) (c : RegIdx) : Token := { reg := c, serial := s.issued }

/-- IN rC (R77): run <- AwaitingInput(c); return InputNeeded(token(c)). No register changes in this step. -/
def execIn (c : RegIdx) (s : State) : Host.Outcome State Fault Refusal :=
  .next
    { s with run := .awaitingInput (s.newToken c), result := some (.inputNeeded (s.newToken c)), issued := s.issued + 1 }

end Sys2Proof.Machine
end

