-- ==== Sys2Proof/Machine/Dispatch.lean ====
section
/-! DEFINITION. Machine/Dispatch.lean: one arm per instruction, "no default arm" (spec/30_encoding.md R61). -/

namespace Sys2Proof.Machine

/-- The arm of an instruction, run in the state the step has advanced (R61). -/
def exec (i : Instr) (s : State) : Host.Outcome State Fault Refusal :=
  match i with
  | .cmov a b c => Sys2Proof.Machine.execCmov a b c s
  | .aidx a b c => Sys2Proof.Machine.execAidx a b c s
  | .aamd a b c => Sys2Proof.Machine.execAamd a b c s
  | .add a b c => Sys2Proof.Machine.execAdd a b c s
  | .mul a b c => Sys2Proof.Machine.execMul a b c s
  | .div a b c => Sys2Proof.Machine.execDiv a b c s
  | .nand a b c => Sys2Proof.Machine.execNand a b c s
  | .halt => Sys2Proof.Machine.execHalt s
  | .alloc b c => Sys2Proof.Machine.execAlloc b c s
  | .aband c => Sys2Proof.Machine.execAband c s
  | .out c => Sys2Proof.Machine.execOut c s
  | .inp c => Sys2Proof.Machine.execIn c s
  | .loadp b c => Sys2Proof.Machine.execLoadp b c s
  | .ortho a imm => Sys2Proof.Machine.execOrtho a imm s

end Sys2Proof.Machine
end

