-- ==== Sys2Proof/Machine/Sequencer.lean ====
section
/-! DEFINITION. Machine/Sequencer.lean: the step sequencer's body (spec/00_scope.md R2; spec/30_encoding.md R61) and the
placing of a Word where it fetches. -/

namespace Sys2Proof.Machine

/-- The step of a running block (R61): fetch, decode, advance, apply. A fault of the fetch or the decode leaves the
finger at `at` (R81). -/
def stepRunning (s : State) : Host.Outcome State Fault Refusal :=
  match fetch s.mem s.finger with
  | .error f => .next (s.raise f s.finger none)
  | .ok w =>
    match decode w with
    | .error _ => .next (s.raise .invalidOpcode s.finger (some w))
    | .ok i => exec i s.advance

/-- Bank 0 with `w` at offset `f`, made one Word longer than `f` if it is shorter. -/
def placeWord (b : Bank) (f : Nat) (w : Word) : Bank := { Bank.write b f w with len := max b.len (f + 1) }

end Sys2Proof.Machine
end

