-- ==== Sys2Proof/Machine/Step.lean ====
section
/-! DEFINITION. Machine/Step.lean: when a step is enabled (spec/60_exceptions.md R91), and the placing of an instruction
where the next step fetches. -/

namespace Sys2Proof.Machine

/-- "`step()` is enabled exactly when the run state is `Running`" (R91); in any other it has no transition. -/
def step (s : State) : Host.Outcome State Fault Refusal :=
  match s.run with
  | .running => stepRunning s
  | .awaitingInput _ => .refused .stepWhileAwaitingInput
  | .halted => .refused .stepAfterHalt
  | .faulted _ _ _ => .refused .stepAfterFault

/-- `s` with the instruction of the opcode table's bits `w` where the next step fetches: offset `finger` of bank 0, the
run state `Running`. It stands for the program image that `reset(image)` loads from outside (R96, log 7). -/
def State.withFetchWord (s : State) (nbits w : Nat) : State :=
  { s with
    run := .running
    mem := { s.mem with
      banks := placeWord (s.mem.bank 0) s.finger.toNat (tableWord nbits w) :: s.mem.banks.tail } }

end Sys2Proof.Machine
end

