-- ==== Sys2Proof/Machine/HostPort.lean ====
section
/-! DEFINITION. Machine/HostPort.lean: the host's three transactions (spec/00_scope.md R13; spec/60_exceptions.md R91 to
R93): `reset(image)` (spec/70_reset_and_hazards.md R96 to R99), `step()`, and `provide_input` (spec/42_control_io.md R78). -/

namespace Sys2Proof.Machine

/-- The program image of a program file's bytes: big-endian 4-byte groups, a trailing partial group discarded (R98). -/
def imageOfBytes : List Byte → List Word
  | b0 :: b1 :: b2 :: b3 :: rest => (b0 ++ b1 ++ b2 ++ b3) :: imageOfBytes rest
  | _ => []

/-- The state that `reset(image)` sets (R96): every piece of state at the value of R27 to R30. `issued` is the number of
tokens created before it, 0 at a block's first reset (log 6). -/
def resetState (cfg : Config) (image : List Word) (issued : Nat := 0) : State :=
  { cfg := cfg
    regs := Vector.replicate 8 0
    finger := 0
    mem := { banks := [Bank.ofWords image], free := [] }
    run := .running
    result := none
    outputs := []
    issued := issued }

/-- `reset(image)` of a block with these parameters: refused for an image over 2^32 - 1 Words (R97), and for one over
MAX_STORAGE_WORDS (R21, log 8). -/
def resetWith (cfg : Config) (image : List Word) (issued : Nat := 0) : Host.Outcome State Fault Refusal :=
  if imageWellFormed image then
    if overStorage cfg image.length then .refused .imageOverStorage else .next (resetState cfg image issued)
  else .refused .imageTooLong

/-- `reset(image)` from any state, "whatever the run state was"; no state of the block survives (R96). Its parameters do,
and the count that keeps an old token from being a new one (R92, log 6). -/
def hostReset (image : List Word) (s : State) : Host.Outcome State Fault Refusal := resetWith s.cfg image s.issued

/-- `provide_input(token, v)` (R78): enabled exactly in the run state that waits for this very token; a token already
consumed is not it, even where a later Input on the same register waits (R92, log 6). Only register c and the run state
change. The byte is the host's: every one is possible (93_implementation_defined.md). -/
def provideInput (token : Token) (v : Option Byte) (s : State) : Host.Outcome State Fault Refusal :=
  match s.run with
  | .awaitingInput pending =>
    if token = pending then .next { s.setReg pending.reg (inputWord v) with run := .running }
    else .refused .notThePendingToken
  | .running => .refused .noInputPending
  | .halted => .refused .noInputPending
  | .faulted _ _ _ => .refused .noInputPending

/-- A transaction of the host (R13). -/
inductive Transaction where
  | reset (image : List Word)
  | step
  | provideInput (token : Token) (v : Option Byte)
deriving DecidableEq, Repr

/-- A block as the host finds it: before its first reset, when only its parameters are known (R99), or in a state. -/
inductive Block where
  | beforeReset (cfg : Config)
  | up (s : State)
deriving DecidableEq, Repr

/-- A state's outcome as a block's outcome. -/
def upOutcome : Host.Outcome State Fault Refusal → Host.Outcome Block Fault Refusal
  | .next s => .next (.up s)
  | .fault f => .fault f
  | .refused r => .refused r

/-- One transaction: an atomic transition of the block, or none (R89, R91, R92, R99). -/
def transact (b : Block) (t : Transaction) : Host.Outcome Block Fault Refusal :=
  match b, t with
  | .beforeReset cfg, .reset image => upOutcome (resetWith cfg image)
  | .beforeReset _, .step => .refused .beforeFirstReset
  | .beforeReset _, .provideInput _ _ => .refused .beforeFirstReset
  | .up s, .reset image => upOutcome (hostReset image s)
  | .up s, .step => upOutcome (Sys2Proof.Machine.step s)
  | .up s, .provideInput token v => upOutcome (Sys2Proof.Machine.provideInput token v s)

/-- The transactions in order, stopping at the first that has no transition. -/
def transactAll (b : Block) : List Transaction → Host.Outcome Block Fault Refusal
  | [] => .next b
  | t :: rest =>
    match transact b t with
    | .next b' => transactAll b' rest
    | .fault f => .fault f
    | .refused r => .refused r

end Sys2Proof.Machine
end

