-- ==== Sys2Proof/Safety.lean ====
section
/-! DEFINITION. Safety.lean: what a good state is, and how a run ends (spec/10_state.md R16 to R24;
spec/60_exceptions.md R95). -/

namespace Sys2Proof.Machine

/-- What the last step returned agrees with a run state it caused: the record of a fault, Halted, InputNeeded (R75, R77,
R80); and a pending token is the last one created (R24). -/
def State.runAgrees (s : State) : Bool :=
  match s.run with
  | .running => true
  | .awaitingInput token => decide (s.result = some (.inputNeeded token) ∧ s.issued = token.serial + 1)
  | .halted => decide (s.result = some .halted)
  | .faulted f pos word => decide (s.result = some (.fault f pos word))

/-- The invariants the spec states of every state after a reset: legal parameters (R6), the table and the free list as
R17 to R20 say, N at most MAX_BANKS (R17), storage within MAX_STORAGE_WORDS (R21), and the last result and token
as the run state has them. -/
abbrev State.Inv (s : State) : Prop :=
  s.cfg.wellFormed = true ∧ s.mem.wf ∧ s.mem.size ≤ s.cfg.maxBanks ∧
    overStorage s.cfg s.mem.storageInUse = false ∧ s.runAgrees = true

/-- `State.Inv` of a block: before its first reset only its parameters are known (R99). -/
abbrev Block.Inv (b : Block) : Prop :=
  match b with
  | .beforeReset cfg => cfg.wellFormed = true
  | .up s => s.Inv

/-- "A run ends well when a step returns `Halted`" (R95). -/
def State.endedWell (s : State) : Bool :=
  match s.run with
  | .halted => true
  | .running => false
  | .awaitingInput _ => false
  | .faulted _ _ _ => false

/-- "It ends badly when a step returns `Fault`" (R95). -/
def State.endedBadly (s : State) : Bool :=
  match s.run with
  | .faulted _ _ _ => true
  | .running => false
  | .awaitingInput _ => false
  | .halted => false

end Sys2Proof.Machine
end

