-- ==== Sys2Proof/Certificates/Slice0/Obligations.lean ====
section
/-! DEFINITION. Certificates/Slice0/Obligations.lean: the statements for the provers, each from the numbered rules of spec/.

A statement about an instruction has three parts: the Words that decode to it, whatever their ignored bits hold; that
`exec` of it ANSWERS A NEXT STATE under conditions on the state and the operands alone; what that state holds, with the
frame (everything the instruction leaves unchanged). The bit fields of a Word are written here as arithmetic on its value,
not with the decoder's own functions. -/

open Sys2Proof Sys2Proof.Machine

namespace Sys2Proof.Claims

/-! ## Words, as R7 and R50 to R55 number their bits -/

/-- The opcode's value: bits 31..28, so the Word's value divided by 2^28 (R51). -/
def opValue (w : Word) : Nat := w.toNat / 268435456

/-- Field A of the standard format, bits 8..6 (R52). -/
def fieldA (w : Word) : RegIdx := BitVec.ofNat 3 (w.toNat / 64)

/-- Field B, bits 5..3 (R52). -/
def fieldB (w : Word) : RegIdx := BitVec.ofNat 3 (w.toNat / 8)

/-- Field C, bits 2..0 (R52). -/
def fieldC (w : Word) : RegIdx := BitVec.ofNat 3 w.toNat

/-- Field A of the orthography format, bits 27..25 (R53). -/
def orthoFieldA (w : Word) : RegIdx := BitVec.ofNat 3 (w.toNat / 33554432)

/-- The immediate, bits 24..0 (R53). -/
def immediate (w : Word) : Imm := BitVec.ofNat 25 w.toNat

/-- Bit i of a Word with this opcode is not among R55's ignored bits: 27..9 for opcodes 0 to 6, 27..0 for 7, 27..6 for 8
and 12, 27..3 for 9, 10 and 11, none for 13. -/
abbrev UsedBit (op i : Nat) : Prop :=
  28 ≤ i ∨ (op ≤ 6 ∧ i ≤ 8) ∨ ((op = 8 ∨ op = 12) ∧ i ≤ 5) ∨ ((op = 9 ∨ op = 10 ∨ op = 11) ∧ i ≤ 2) ∨ op = 13

/-! ## Frames

`result`, `outputs` and `issued` are the model's own fields (log 4, log 6): a frame says that they, too, stay. -/

/-- `t` is `s` but for register a: the parameters, every other register, the finger, all of memory and the free list, the
run state, the last result, the output bytes and the count of tokens are the same. -/
def OnlyRegister (a : RegIdx) (s t : State) : Prop :=
  t.cfg = s.cfg ∧ (∀ r, r ≠ a → t.reg r = s.reg r) ∧ t.finger = s.finger ∧ t.mem = s.mem ∧ t.run = s.run ∧
    t.result = s.result ∧ t.outputs = s.outputs ∧ t.issued = s.issued

/-- `t` is `s` but for memory, which the statement itself speaks of. -/
def OnlyMemory (s t : State) : Prop :=
  t.cfg = s.cfg ∧ (∀ r, t.reg r = s.reg r) ∧ t.finger = s.finger ∧ t.run = s.run ∧ t.result = s.result ∧
    t.outputs = s.outputs ∧ t.issued = s.issued

/-- `t` is `s` but for the run state and the last result, which the statement itself speaks of. -/
def OnlyRunAndResult (s t : State) : Prop :=
  t.cfg = s.cfg ∧ (∀ r, t.reg r = s.reg r) ∧ t.finger = s.finger ∧ t.mem = s.mem ∧ t.outputs = s.outputs ∧
    t.issued = s.issued

/-- The arm has raised `f` (R80, R81): the run state is `Faulted` with the cause, the finger before it was advanced and the
Word there; the step returns that fault; registers, memory, free list and the advanced finger are unchanged. -/
def Trapped (f : Fault) (s t : State) : Prop :=
  t.run = .faulted f (s.finger - 1) (fetch s.mem (s.finger - 1)).toOption ∧
    t.result = some (.fault f (s.finger - 1) (fetch s.mem (s.finger - 1)).toOption) ∧ OnlyRunAndResult s t

/-- Every Word of every bank but those of bank k reads as before, and so does every fault of such a read. -/
def OtherBanksRead (k : Word) (m m' : Memory) : Prop := ∀ k' j, k' ≠ k → memRead m' k' j = memRead m k' j

/-- The causes an instruction's arm may raise (R82). -/
def MayRaise : Instr → Fault → Prop
  | .div _ _ _, f => f = .divideByZero
  | .aidx _ _ _, f => f = .bankNotLive ∨ f = .offsetOutOfRange
  | .aamd _ _ _, f => f = .bankNotLive ∨ f = .offsetOutOfRange
  | .aband _, f => f = .abandonBank0 ∨ f = .abandonNotLive
  | .loadp _ _, f => f = .bankNotLive ∨ f = .storageExhausted
  | .alloc _ _, f => f = .storageExhausted ∨ f = .bankIdsExhausted
  | .cmov _ _ _, _ => False
  | .add _ _ _, _ => False
  | .mul _ _ _, _ => False
  | .nand _ _ _, _ => False
  | .halt, _ => False
  | .out _, _ => False
  | .inp _, _ => False
  | .ortho _ _, _ => False

/-- The step results that carry a byte to the host. -/
def emitted : Option StepResult → List Byte
  | some (.output byte) => [byte]
  | _ => []

end Sys2Proof.Claims

open Sys2Proof.Claims

/-! ## Encoding (spec/30_encoding.md) -/

/-- R59: `Decode(EncStd(op, a, b, c)) = Instr(op, a, b, c)` and `Decode(EncOrtho(a, v)) = Instr(13, a, v)`, the encoder's
formulas, zero in the ignored bits, for every instruction with every operand at every value; and the decoder does not
require the ignored bits to be zero. -/
def Obligations.DecodeInvertsEncode : Prop :=
  (∀ i : Instr, decode (encode i) = .ok i) ∧
    (∀ (op : Opcode) (a b c : RegIdx), op.toNat ≤ 12 →
      (encStd op a b c).toNat = op.toNat * 268435456 + a.toNat * 64 + b.toNat * 8 + c.toNat ∧
        (fieldsOf (encStd op a b c)).op = op ∧ (fieldsOf (encStd op a b c)).a = a ∧
        (fieldsOf (encStd op a b c)).b = b ∧ (fieldsOf (encStd op a b c)).c = c) ∧
    (∀ (a : RegIdx) (v : Imm),
      (encOrtho a v).toNat = 13 * 268435456 + a.toNat * 33554432 + v.toNat ∧
        (fieldsOf (encOrtho a v)).op = 13 ∧ (fieldsOf (encOrtho a v)).a = a ∧ (fieldsOf (encOrtho a v)).imm = v) ∧
    (∀ (i : Instr) (n : Nat), n < 28 → ¬UsedBit i.opcode.toNat n → (encode i).getLsbD n = false) ∧
    ∀ (i : Instr) (w : Word), (∀ n, n < 32 → UsedBit i.opcode.toNat n → w.getLsbD n = (encode i).getLsbD n) →
      decode w = .ok i

/-- The other direction: the Word of a decoded instruction is the decoded Word with its ignored bits cleared. -/
def Obligations.EncodeOfDecodeClearsIgnoredBits : Prop :=
  ∀ (w : Word) (i : Instr), decode w = .ok i → encode i = w &&& ~~~ignoredMask (opcodeOf w)

/-- R55: words of one opcode that agree on the used bits decode alike: to one instruction, or to no instruction. -/
def Obligations.DecodingReadsOnlyTheUsedBits : Prop :=
  ∀ w w' : Word, (∀ n, n < 32 → UsedBit (opValue w) n → w.getLsbD n = w'.getLsbD n) → opValue w ≤ 13 →
    ∃ i, decode w = .ok i ∧ decode w' = .ok i

/-- R58, R51, conflict C1: the decoder answers `Invalid(op)` for opcodes 14 and 15; for 13 the orthography fields; for 0 to
12 the standard fields; and for every Word with opcode 0 to 13 an instruction of that opcode. -/
def Obligations.DecoderFollowsThePseudocode : Prop :=
  ∀ w : Word, (fieldsOf w).op.toNat = opValue w ∧
    (14 ≤ opValue w → decode w = .error (.invalid (fieldsOf w).op)) ∧
    (opValue w = 13 → (fieldsOf w).a = orthoFieldA w ∧ (fieldsOf w).imm = immediate w) ∧
    (opValue w ≤ 12 → (fieldsOf w).a = fieldA w ∧ (fieldsOf w).b = fieldB w ∧ (fieldsOf w).c = fieldC w) ∧
    (opValue w ≤ 13 → ∃ i, decode w = .ok i ∧ i.opcode.toNat = opValue w)

/-- R56: a Word with opcode 14 or 15 is illegal, and the step that fetched it raises DecodeFault(INVALID_OPCODE), the
finger not advanced. -/
def Obligations.IllegalOpcodeFaultsAtDecode : Prop :=
  (∀ w : Word, 14 ≤ opValue w → decode w = .error (.invalid (BitVec.ofNat 4 (opValue w)))) ∧
    ∀ (s : State) (w : Word), s.run = .running → fetch s.mem s.finger = .ok w → 14 ≤ opValue w →
      ∃ t, step s = .next t ∧ t.run = .faulted .invalidOpcode s.finger (some w) ∧
        t.result = some (.fault .invalidOpcode s.finger (some w)) ∧ OnlyRunAndResult s t

/-- Words of spec/95_test_vectors.md section 2.1 and what they decode to. -/
def Obligations.SpecDecoderVectors : Prop :=
  decode 0x00000000 = .ok (.cmov 0 0 0) ∧ decode 0x0FFFFFFF = .ok (.cmov 7 7 7) ∧
    decode 0x300001C8 = .ok (.add 7 1 0) ∧ decode 0x3FFFFFC8 = .ok (.add 7 1 0) ∧
    decode 0x7FFFFFFF = .ok .halt ∧ decode 0x8000003F = .ok (.alloc 7 7) ∧ decode 0xC0000010 = .ok (.loadp 2 0) ∧
    decode 0xD1000000 = .ok (.ortho 0 0x1000000) ∧ decode 0xDE000000 = .ok (.ortho 7 0) ∧
    decode 0xE0000000 = .error (.invalid 14) ∧ decode 0xFFFFFFFF = .error (.invalid 15)

/-! ## The step (spec/30_encoding.md R61, spec/60_exceptions.md) -/

/-- R61: a step fetches the Word at the finger, decodes it, advances the finger by one, then applies the instruction; it
returns Continue unless the arm sets another result. -/
def Obligations.StepRunsTheDecodedInstruction : Prop :=
  ∀ (s : State) (w : Word) (i : Instr), s.run = .running → fetch s.mem s.finger = .ok w → decode w = .ok i →
    step s = exec i { s with finger := s.finger + 1, result := some .continues }

/-- R38: a finger at or past the end of bank 0 raises MemoryFault(FETCH_OUT_OF_RANGE), nothing fetched, the finger not
advanced; any other finger fetches the Word of bank 0 there. -/
def Obligations.FetchFaultsExactlyPastBankZero : Prop :=
  (∀ (m : Memory) (f : Word), f.toNat < (m.bank 0).len → fetch m f = .ok ((m.bank 0).read f.toNat)) ∧
    ∀ s : State, s.run = .running → (s.mem.bank 0).len ≤ s.finger.toNat →
      ∃ t, step s = .next t ∧ t.run = .faulted .fetchOutOfRange s.finger none ∧
        t.result = some (.fault .fetchOutOfRange s.finger none) ∧ OnlyRunAndResult s t

/-- R91: `step()` is enabled exactly when the run state is `Running`; in any other run state it has no transition, and in
`Halted` and `Faulted` `provide_input` has none either. -/
def Obligations.StepEnabledExactlyWhenRunning : Prop :=
  (∀ s : State, s.run = .running → ∃ t, step s = .next t) ∧
    (∀ (s : State) (pending : Token), s.run = .awaitingInput pending → step s = .refused .stepWhileAwaitingInput) ∧
    (∀ s : State, s.run = .halted → step s = .refused .stepAfterHalt) ∧
    (∀ (s : State) (f : Fault) (pos : Word) (w : Option Word), s.run = .faulted f pos w →
      step s = .refused .stepAfterFault) ∧
    ∀ (s : State) (token : Token) (v : Option Byte), (s.run = .halted ∨ ∃ f pos w, s.run = .faulted f pos w) →
      provideInput token v s = .refused .noInputPending

/-- R80, R81: a step that ends in `Faulted` records the finger it began with and the Word it fetched (none where nothing
was fetched), returns that fault, and changes no register, no bank, no free id; the finger is the old one when fetch or
decode raised the fault and the advanced one when the arm did. No step follows. -/
def Obligations.FaultsArePrecise : Prop :=
  ∀ (s t : State) (f : Fault) (pos : Word) (w : Option Word), step s = .next t → t.run = .faulted f pos w →
    pos = s.finger ∧ w = (fetch s.mem s.finger).toOption ∧ t.result = some (.fault f pos w) ∧ t.cfg = s.cfg ∧
      (∀ r, t.reg r = s.reg r) ∧ t.mem = s.mem ∧ t.outputs = s.outputs ∧ t.issued = s.issued ∧
      ((∀ x i, fetch s.mem s.finger = .ok x → decode x ≠ .ok i) → t.finger = s.finger) ∧
      (∀ x i, fetch s.mem s.finger = .ok x → decode x = .ok i → t.finger = s.finger + 1) ∧
      step t = .refused .stepAfterFault

/-- R82, R83: the fault of a step is the fetch's, or after a fetched Word the decoder's, or after a decoded instruction one
that the rule lists for that instruction. -/
def Obligations.FaultsComeOnlyFromTheListedCauses : Prop :=
  ∀ (s t : State) (f : Fault) (pos : Word) (w : Option Word), step s = .next t → t.run = .faulted f pos w →
    (fetch s.mem s.finger = .error .fetchOutOfRange ∧ f = .fetchOutOfRange) ∨
      ∃ x, fetch s.mem s.finger = .ok x ∧
        ((14 ≤ opValue x ∧ f = .invalidOpcode) ∨ ∃ i, decode x = .ok i ∧ MayRaise i f)

/-- R79: the codes and subcause values of the nine causes. -/
def Obligations.FaultCodesAreTheTable : Prop :=
  (Fault.invalidOpcode.code = 1 ∧ Fault.invalidOpcode.subcause = 1) ∧
    (Fault.fetchOutOfRange.code = 2 ∧ Fault.fetchOutOfRange.subcause = 1) ∧
    (Fault.bankNotLive.code = 2 ∧ Fault.bankNotLive.subcause = 2) ∧
    (Fault.offsetOutOfRange.code = 2 ∧ Fault.offsetOutOfRange.subcause = 3) ∧
    (Fault.abandonBank0.code = 2 ∧ Fault.abandonBank0.subcause = 4) ∧
    (Fault.abandonNotLive.code = 2 ∧ Fault.abandonNotLive.subcause = 5) ∧
    (Fault.divideByZero.code = 3 ∧ Fault.divideByZero.subcause = 1) ∧
    (Fault.storageExhausted.code = 4 ∧ Fault.storageExhausted.subcause = 1) ∧
    Fault.bankIdsExhausted.code = 4 ∧ Fault.bankIdsExhausted.subcause = 2

/-- R15: a step of a decoded instruction leaves the finger one past where it was, unless the instruction is LoadProgram and
raises no fault, when the finger is x[c]. -/
def Obligations.OnlyLoadProgramMovesTheFinger : Prop :=
  ∀ (s t : State) (w : Word) (i : Instr), step s = .next t → fetch s.mem s.finger = .ok w → decode w = .ok i →
    t.finger = s.finger + 1 ∨ ∃ b c, i = .loadp b c ∧ t.run = .running ∧ t.finger = s.reg c

/-- R16: in a state with the model's invariant, whose banks have at most 2^32 - 1 Words, the finger of a successful fetch
advances without wrapping around. -/
def Obligations.FingerNeverWraps : Prop :=
  ∀ (s : State) (w : Word), s.Inv → fetch s.mem s.finger = .ok w → (s.finger + 1).toNat = s.finger.toNat + 1

/-- R10, R6: a step writes at most one register, and never the parameters; the bank table never shrinks and grows by at
most one slot (R17). -/
def Obligations.StepWritesAtMostOneRegister : Prop :=
  ∀ s t : State, step s = .next t →
    (∃ a, ∀ r, r ≠ a → t.reg r = s.reg r) ∧ t.cfg = s.cfg ∧ s.mem.size ≤ t.mem.size ∧ t.mem.size ≤ s.mem.size + 1

/-- R76, R105: a step adds to the output bytes exactly the byte it returns; so along any run the bytes given out earlier
stay, in their order, before the later ones. (`outputs` is the model's own record of them, log 4.) -/
def Obligations.OutputBytesLeaveInStepOrder : Prop :=
  (∀ s t : State, step s = .next t → t.outputs = s.outputs ++ emitted t.result) ∧
    ∀ (n : Nat) (s t : State), Host.Core.run Sys2Proof.core n s = .next t → ∃ bytes, t.outputs = s.outputs ++ bytes

/-- R95: a LoadProgram with x[b] = 0 whose target is itself is a run that never ends: after any number of steps the block
is `Running` at the same finger, registers and memory as they were. -/
def Obligations.SelfJumpNeverEnds : Prop :=
  ∀ (s : State) (w : Word) (b c : RegIdx), s.run = .running → fetch s.mem s.finger = .ok w →
    decode w = .ok (.loadp b c) → s.reg b = 0 → s.reg c = s.finger →
    ∀ n, ∃ t : State, Host.Core.run Sys2Proof.core n s = .next t ∧ t.run = .running ∧ t.finger = s.finger ∧
      (∀ r, t.reg r = s.reg r) ∧ t.mem = s.mem

/-! ## ALU and register instructions (spec/40_alu.md) -/

/-- R64 (CMOV): if x[c] is not 0 then x[a] becomes x[b], else no register changes. -/
def Obligations.CmovMovesExactlyWhenConditionNonzero : Prop :=
  (∀ w : Word, opValue w = 0 → decode w = .ok (.cmov (fieldA w) (fieldB w) (fieldC w))) ∧
    ∀ (a b c : RegIdx) (s : State), ∃ t, exec (.cmov a b c) s = .next t ∧
      (s.reg c ≠ 0 → t.reg a = s.reg b) ∧ (s.reg c = 0 → t.reg a = s.reg a) ∧ OnlyRegister a s t

/-- R65 (ADD): x[a] becomes (x[b] + x[c]) mod 2^32; no carry is recorded and nothing faults. -/
def Obligations.AddWritesTheSumModulo : Prop :=
  (∀ w : Word, opValue w = 3 → decode w = .ok (.add (fieldA w) (fieldB w) (fieldC w))) ∧
    ∀ (a b c : RegIdx) (s : State), ∃ t, exec (.add a b c) s = .next t ∧
      (t.reg a).toNat = ((s.reg b).toNat + (s.reg c).toNat) % 4294967296 ∧ OnlyRegister a s t

/-- R66 (MUL): x[a] becomes (x[b] * x[c]) mod 2^32, the low 32 bits of the exact product. -/
def Obligations.MulWritesTheProductModulo : Prop :=
  (∀ w : Word, opValue w = 4 → decode w = .ok (.mul (fieldA w) (fieldB w) (fieldC w))) ∧
    ∀ (a b c : RegIdx) (s : State), ∃ t, exec (.mul a b c) s = .next t ∧
      (t.reg a).toNat = ((s.reg b).toNat * (s.reg c).toNat) % 4294967296 ∧ OnlyRegister a s t

/-- R67 (DIV): x[a] becomes the unsigned quotient; exactly when x[c] = 0 the step faults with DIVIDE_BY_ZERO and no
register is written. -/
def Obligations.DivWritesTheQuotientOrFaults : Prop :=
  (∀ w : Word, opValue w = 5 → decode w = .ok (.div (fieldA w) (fieldB w) (fieldC w))) ∧
    (∀ (a b c : RegIdx) (s : State), s.reg c ≠ 0 → ∃ t, exec (.div a b c) s = .next t ∧
      (t.reg a).toNat = (s.reg b).toNat / (s.reg c).toNat ∧ OnlyRegister a s t) ∧
    ∀ (a b c : RegIdx) (s : State), s.reg c = 0 → ∃ t, exec (.div a b c) s = .next t ∧ Trapped .divideByZero s t

/-- R68 (NAND): every bit of x[a] becomes the complement of the conjunction of the bits of x[b] and x[c]. -/
def Obligations.NandWritesTheBitwiseNotAnd : Prop :=
  (∀ w : Word, opValue w = 6 → decode w = .ok (.nand (fieldA w) (fieldB w) (fieldC w))) ∧
    ∀ (a b c : RegIdx) (s : State), ∃ t, exec (.nand a b c) s = .next t ∧
      (∀ n, n < 32 → (t.reg a).getLsbD n = !((s.reg b).getLsbD n && (s.reg c).getLsbD n)) ∧ OnlyRegister a s t

/-- R69 (ORTHO): x[a] becomes the 25-bit immediate, zero-extended; no bit of the Word is ignored. -/
def Obligations.OrthoLoadsTheZeroExtendedImmediate : Prop :=
  (∀ w : Word, opValue w = 13 → decode w = .ok (.ortho (orthoFieldA w) (immediate w))) ∧
    ∀ (a : RegIdx) (imm : Imm) (s : State), ∃ t, exec (.ortho a imm) s = .next t ∧
      (t.reg a).toNat = imm.toNat ∧ OnlyRegister a s t

/-! ## Memory bank instructions (spec/41_memory_bank.md) -/

/-- R70 (AIDX): x[a] becomes the Word at offset x[c] of bank x[b]; BANK_NOT_LIVE where the bank is not live,
OFFSET_OUT_OF_RANGE where it is and the offset is not below its length. -/
def Obligations.ArrayIndexReadsOrFaults : Prop :=
  (∀ w : Word, opValue w = 1 → decode w = .ok (.aidx (fieldA w) (fieldB w) (fieldC w))) ∧
    (∀ (a b c : RegIdx) (s : State), s.mem.live (s.reg b) = true → (s.reg c).toNat < (s.mem.bank (s.reg b)).len →
      ∃ t, exec (.aidx a b c) s = .next t ∧ t.reg a = (s.mem.bank (s.reg b)).read (s.reg c).toNat ∧
        OnlyRegister a s t) ∧
    (∀ (a b c : RegIdx) (s : State), s.mem.live (s.reg b) = false →
      ∃ t, exec (.aidx a b c) s = .next t ∧ Trapped .bankNotLive s t) ∧
    ∀ (a b c : RegIdx) (s : State), s.mem.live (s.reg b) = true → (s.mem.bank (s.reg b)).len ≤ (s.reg c).toNat →
      ∃ t, exec (.aidx a b c) s = .next t ∧ Trapped .offsetOutOfRange s t

/-- R71 (AAMD): the Word at offset x[b] of bank x[a] becomes x[c]; every other Word of memory, every bank's length and
liveness stay; the faults as in ArrayIndex, with no bank changed. -/
def Obligations.ArrayAmendmentWritesOneWordOrFaults : Prop :=
  (∀ w : Word, opValue w = 2 → decode w = .ok (.aamd (fieldA w) (fieldB w) (fieldC w))) ∧
    (∀ (a b c : RegIdx) (s : State), s.mem.wf → s.mem.live (s.reg a) = true →
      (s.reg b).toNat < (s.mem.bank (s.reg a)).len →
      ∃ t, exec (.aamd a b c) s = .next t ∧ memRead t.mem (s.reg a) (s.reg b) = .ok (s.reg c) ∧
        (∀ k j, ¬(k = s.reg a ∧ j = s.reg b) → memRead t.mem k j = memRead s.mem k j) ∧
        (∀ k, (t.mem.bank k).len = (s.mem.bank k).len) ∧ t.mem.free = s.mem.free ∧ t.mem.size = s.mem.size ∧
        OnlyMemory s t) ∧
    (∀ (a b c : RegIdx) (s : State), s.mem.live (s.reg a) = false →
      ∃ t, exec (.aamd a b c) s = .next t ∧ Trapped .bankNotLive s t) ∧
    ∀ (a b c : RegIdx) (s : State), s.mem.live (s.reg a) = true → (s.mem.bank (s.reg a)).len ≤ (s.reg b).toNat →
      ∃ t, exec (.aamd a b c) s = .next t ∧ Trapped .offsetOutOfRange s t

/-- R72, R35, R83 (ALLOC): x[b] becomes the most recently freed id, else N; that id was not live and is not 0; its bank has
x[c] Words, each 0; every other bank is as before. Where MAX_STORAGE_WORDS would be passed the step faults with
STORAGE_EXHAUSTED, else where no id is free and N = MAX_BANKS with BANK_IDS_EXHAUSTED, no register and no bank changed. -/
def Obligations.AllocationMakesAZeroFilledBankOrFaults : Prop :=
  (∀ w : Word, opValue w = 8 → decode w = .ok (.alloc (fieldB w) (fieldC w))) ∧
    (∀ (b c : RegIdx) (s : State), s.Inv → overStorage s.cfg (s.mem.storageInUse + (s.reg c).toNat) = false →
      (s.mem.free ≠ [] ∨ s.mem.size ≠ s.cfg.maxBanks) →
      ∃ t, exec (.alloc b c) s = .next t ∧
        (∀ k rest, s.mem.free = k :: rest → t.reg b = k ∧ t.mem.free = rest ∧ t.mem.size = s.mem.size) ∧
        (s.mem.free = [] → (t.reg b).toNat = s.mem.size ∧ t.mem.free = [] ∧ t.mem.size = s.mem.size + 1) ∧
        t.reg b ≠ 0 ∧ s.mem.live (t.reg b) = false ∧ t.mem.live (t.reg b) = true ∧
        (t.mem.bank (t.reg b)).len = (s.reg c).toNat ∧
        (∀ j : Word, j.toNat < (s.reg c).toNat → memRead t.mem (t.reg b) j = .ok 0) ∧
        OtherBanksRead (t.reg b) s.mem t.mem ∧ t.cfg = s.cfg ∧ (∀ r, r ≠ b → t.reg r = s.reg r) ∧
        t.finger = s.finger ∧ t.run = s.run ∧ t.result = s.result ∧ t.outputs = s.outputs ∧
        t.issued = s.issued) ∧
    (∀ (b c : RegIdx) (s : State), overStorage s.cfg (s.mem.storageInUse + (s.reg c).toNat) = true →
      ∃ t, exec (.alloc b c) s = .next t ∧ Trapped .storageExhausted s t) ∧
    ∀ (b c : RegIdx) (s : State), overStorage s.cfg (s.mem.storageInUse + (s.reg c).toNat) = false →
      s.mem.free = [] → s.mem.size = s.cfg.maxBanks →
      ∃ t, exec (.alloc b c) s = .next t ∧ Trapped .bankIdsExhausted s t

/-- R84: with both parameters unbounded a block never runs out of storage, and runs out of ids only when all 2^32 are
live. -/
def Obligations.UnboundedBlockNeverExhaustsStorage : Prop :=
  ∀ (s t : State) (f : Fault) (pos : Word) (w : Option Word), s.Inv → s.cfg = Config.unbounded → step s = .next t →
    t.run = .faulted f pos w → f ≠ .storageExhausted ∧ (f = .bankIdsExhausted → ∀ k, s.mem.live k = true)

/-- R73, R36 (ABAND): a live id other than 0 is freed: its bank becomes empty, it goes on top of the free list, and every
other bank is as before. ABANDON_BANK0 for 0, ABANDON_NOT_LIVE for any other id that is not live, nothing changed. -/
def Obligations.AbandonmentFreesOrFaults : Prop :=
  (∀ w : Word, opValue w = 9 → decode w = .ok (.aband (fieldC w))) ∧
    (∀ (c : RegIdx) (s : State), s.reg c ≠ 0 → s.mem.live (s.reg c) = true →
      ∃ t, exec (.aband c) s = .next t ∧ t.mem.free = s.reg c :: s.mem.free ∧ t.mem.live (s.reg c) = false ∧
        t.mem.bank (s.reg c) = Bank.empty ∧ OtherBanksRead (s.reg c) s.mem t.mem ∧ t.mem.size = s.mem.size ∧
        OnlyMemory s t) ∧
    (∀ (c : RegIdx) (s : State), s.reg c = 0 → ∃ t, exec (.aband c) s = .next t ∧ Trapped .abandonBank0 s t) ∧
    ∀ (c : RegIdx) (s : State), s.reg c ≠ 0 → s.mem.live (s.reg c) = false →
      ∃ t, exec (.aband c) s = .next t ∧ Trapped .abandonNotLive s t

/-- R74, R37 (LOADP): with x[b] = 0 only the finger changes, to x[c]; with a live x[b] bank 0 becomes a copy of that bank,
every other bank is as before, and the finger is x[c]; the faults leave everything as it was. -/
def Obligations.LoadProgramJumpsCopiesOrFaults : Prop :=
  (∀ w : Word, opValue w = 12 → decode w = .ok (.loadp (fieldB w) (fieldC w))) ∧
    (∀ (b c : RegIdx) (s : State), s.reg b = 0 →
      ∃ t, exec (.loadp b c) s = .next t ∧ t.finger = s.reg c ∧ t.cfg = s.cfg ∧ (∀ r, t.reg r = s.reg r) ∧
        t.mem = s.mem ∧ t.run = s.run ∧ t.result = s.result ∧ t.outputs = s.outputs ∧ t.issued = s.issued) ∧
    (∀ (b c : RegIdx) (s : State), s.mem.wf → s.reg b ≠ 0 → s.mem.live (s.reg b) = true →
      overStorage s.cfg (s.mem.storageInUse - (s.mem.bank 0).len + (s.mem.bank (s.reg b)).len) = false →
      ∃ t, exec (.loadp b c) s = .next t ∧ t.finger = s.reg c ∧ t.mem.bank 0 = s.mem.bank (s.reg b) ∧
        (∀ j, memRead t.mem 0 j = memRead s.mem (s.reg b) j) ∧ OtherBanksRead 0 s.mem t.mem ∧
        t.mem.free = s.mem.free ∧ t.mem.size = s.mem.size ∧ t.cfg = s.cfg ∧ (∀ r, t.reg r = s.reg r) ∧
        t.run = s.run ∧ t.result = s.result ∧ t.outputs = s.outputs ∧ t.issued = s.issued) ∧
    (∀ (b c : RegIdx) (s : State), s.reg b ≠ 0 → s.mem.live (s.reg b) = false →
      ∃ t, exec (.loadp b c) s = .next t ∧ Trapped .bankNotLive s t) ∧
    ∀ (b c : RegIdx) (s : State), s.reg b ≠ 0 → s.mem.live (s.reg b) = true →
      overStorage s.cfg (s.mem.storageInUse - (s.mem.bank 0).len + (s.mem.bank (s.reg b)).len) = true →
      ∃ t, exec (.loadp b c) s = .next t ∧ Trapped .storageExhausted s t

/-! ## Halt, Output, Input and the host (spec/42_control_io.md, spec/60_exceptions.md section 4) -/

/-- R75 (HALT): the run state becomes `Halted`, the step returns Halted, nothing else changes, and no step is enabled
after it. -/
def Obligations.HaltIsTerminal : Prop :=
  (∀ w : Word, opValue w = 7 → decode w = .ok .halt) ∧
    ∀ s : State, ∃ t, exec .halt s = .next t ∧ t.run = .halted ∧ t.result = some .halted ∧ OnlyRunAndResult s t ∧
      step t = .refused .stepAfterHalt

/-- R76 (OUT): the step returns Output of x[c]'s low 8 bits, whatever the bits above; no register, bank or run state
changes. (`outputs`, where the byte is also recorded, is the model's own field, log 4.) -/
def Obligations.OutputEmitsTheLowByte : Prop :=
  (∀ w : Word, opValue w = 10 → decode w = .ok (.out (fieldC w))) ∧
    ∀ (c : RegIdx) (s : State), ∃ t, ∃ byte : Byte, exec (.out c) s = .next t ∧ byte.toNat = (s.reg c).toNat % 256 ∧
      t.result = some (.output byte) ∧ t.outputs = s.outputs ++ [byte] ∧ t.cfg = s.cfg ∧
      (∀ r, t.reg r = s.reg r) ∧ t.finger = s.finger ∧ t.mem = s.mem ∧ t.run = s.run ∧ t.issued = s.issued

/-- R77 (IN): the run state becomes `AwaitingInput(c)` with a token for register c, the step returns InputNeeded with that
token, no register changes, and no step is enabled until the host answers. (Which token it is:
`EveryInputCreatesAFreshToken`.) -/
def Obligations.InputWaitsForTheHost : Prop :=
  (∀ w : Word, opValue w = 11 → decode w = .ok (.inp (fieldC w))) ∧
    ∀ (c : RegIdx) (s : State), ∃ t, ∃ token : Token, exec (.inp c) s = .next t ∧ token.reg = c ∧
      t.run = .awaitingInput token ∧ t.result = some (.inputNeeded token) ∧ t.cfg = s.cfg ∧
      (∀ r, t.reg r = s.reg r) ∧ t.finger = s.finger ∧ t.mem = s.mem ∧ t.outputs = s.outputs ∧
      step t = .refused .stepWhileAwaitingInput

/-- R78: in `AwaitingInput(c)` with the token of the pending Input, a byte is widened with zero bits into x[c], end of
input writes 0xFFFFFFFF; the run state is `Running` again and nothing else changes. In any other run state, or with
another token, there is no transition. (That the model's own fields `result`, `outputs` and `issued` stay is its choice,
log 4 and log 6; what makes two tokens the same is log 6.) -/
def Obligations.ProvideInputWritesTheBoundRegister : Prop :=
  (∀ (token : Token) (v : Option Byte) (s : State), s.run = .awaitingInput token →
    ∃ t, provideInput token v s = .next t ∧ t.run = .running ∧
      (∀ byte, v = some byte → (t.reg token.reg).toNat = byte.toNat) ∧ (v = none → t.reg token.reg = 0xFFFFFFFF) ∧
      t.cfg = s.cfg ∧ (∀ r, r ≠ token.reg → t.reg r = s.reg r) ∧ t.finger = s.finger ∧ t.mem = s.mem ∧
      t.result = s.result ∧ t.outputs = s.outputs ∧ t.issued = s.issued) ∧
    ∀ (token : Token) (v : Option Byte) (s : State), s.run ≠ .awaitingInput token →
      provideInput token v s = .refused .noInputPending ∨ provideInput token v s = .refused .notThePendingToken

/-- R92: `provide_input` is enabled exactly in the run state that waits for its own token; once it has answered, a second
call with the same token has no transition. (What makes two tokens the same is log 6; the later calls, after any
transactions: `ConsumedTokenIsNeverAcceptedAgain`.) -/
def Obligations.ProvideInputEnabledOncePerInput : Prop :=
  (∀ (token : Token) (v : Option Byte) (s : State),
    (∃ t, provideInput token v s = .next t) ↔ s.run = .awaitingInput token) ∧
    ∀ (token : Token) (v v' : Option Byte) (s t : State), provideInput token v s = .next t →
      provideInput token v' t = .refused .noInputPending

/-- R86, R94: nothing but `reset` leaves `Halted` or `Faulted`, and nothing but its own `provide_input` or `reset` leaves
`AwaitingInput`. -/
def Obligations.OnlyResetLeavesATerminalState : Prop :=
  ∀ (s : State) (tr : Transaction) (b : Block), transact (.up s) tr = .next b →
    (s.run = .halted → ∃ image, tr = .reset image) ∧
      (∀ f pos w, s.run = .faulted f pos w → ∃ image, tr = .reset image) ∧
      ∀ token, s.run = .awaitingInput token → (∃ image, tr = .reset image) ∨ ∃ v, tr = .provideInput token v

/-- R99: before the first reset no transaction but `reset` is enabled. -/
def Obligations.OnlyResetIsEnabledBeforeTheFirst : Prop :=
  ∀ (cfg : Config) (tr : Transaction), (∀ image, tr ≠ .reset image) →
    transact (.beforeReset cfg) tr = .refused .beforeFirstReset

/-! ## Reset and boot (spec/10_state.md section 6, spec/70_reset_and_hazards.md) -/

/-- R96, R27 to R30: reset sets every piece of state, whatever the run state was: registers 0, finger 0, one live slot 0
holding the image's Words, free list empty, `Running`. (That an image over MAX_STORAGE_WORDS is left out is the model's
reading, log 8.) -/
def Obligations.ResetSetsEveryPieceOfState : Prop :=
  ∀ (s : State) (image : List Word), image.length ≤ 4294967295 → overStorage s.cfg image.length = false →
    ∃ t, hostReset image s = .next t ∧ (∀ r, t.reg r = 0) ∧ t.finger = 0 ∧ t.mem.size = 1 ∧
      (∀ k, t.mem.live k = true ↔ k = 0) ∧ t.mem.free = [] ∧ (t.mem.bank 0).len = image.length ∧
      (∀ j : Word, memRead t.mem 0 j = if h : j.toNat < image.length then .ok image[j.toNat]
        else .error .offsetOutOfRange) ∧ t.run = .running ∧ t.cfg = s.cfg

/-- R97: a reset with an image of more than 2^32 - 1 Words has no transition. -/
def Obligations.TooLongAnImageIsRefused : Prop :=
  ∀ (s : State) (image : List Word), 4294967295 < image.length → hostReset image s = .refused .imageTooLong

/-- The model's reading of R21 (log 8): a reset with an image that MAX_STORAGE_WORDS cannot hold has no transition. -/
def Obligations.ImageOverStorageIsRefused : Prop :=
  ∀ (s : State) (image : List Word), image.length ≤ 4294967295 → overStorage s.cfg image.length = true →
    hostReset image s = .refused .imageOverStorage

/-- R98: the image of L file bytes has floor(L / 4) Words, each of four bytes with the first the most significant. -/
def Obligations.ImageIsBigEndianWords : Prop :=
  ∀ bytes : List Byte, (imageOfBytes bytes).length = bytes.length / 4 ∧
    ∀ i, i < bytes.length / 4 → ((imageOfBytes bytes).getD i 0).toNat =
      (bytes.getD (4 * i) 0).toNat * 16777216 + (bytes.getD (4 * i + 1) 0).toNat * 65536 +
        (bytes.getD (4 * i + 2) 0).toNat * 256 + (bytes.getD (4 * i + 3) 0).toNat

/-- R100: an empty image is legal, and the first step then raises MemoryFault(FETCH_OUT_OF_RANGE) with `at` = 0. -/
def Obligations.EmptyImageFaultsAtTheFirstFetch : Prop :=
  ∀ (cfg : Config) (issued : Nat), ∃ s t, resetWith cfg [] issued = .next s ∧ step s = .next t ∧
    t.run = .faulted .fetchOutOfRange 0 none ∧ t.finger = 0

/-! ## The memory bank selector (spec/20_memory.md) -/

/-- R33, R83: what a read answers: the bank check comes before the offset check. -/
def Obligations.ReadChecksBankThenOffset : Prop :=
  ∀ (m : Memory) (k j : Word),
    (memRead m k j = .error .bankNotLive ↔ m.live k = false) ∧
      (memRead m k j = .error .offsetOutOfRange ↔ m.live k = true ∧ (m.bank k).len ≤ j.toNat) ∧
      (m.live k = true → j.toNat < (m.bank k).len → memRead m k j = .ok ((m.bank k).read j.toNat))

/-- R20, R22, R18: every id below N is either live or on the free list, never both, and an id at or above N is neither;
bank 0 is live. -/
def Obligations.EveryIdIsLiveOrFree : Prop :=
  ∀ (m : Memory), m.wf → ∀ k : Word,
    (k.toNat < m.size → (m.live k = true ∧ k ∉ m.free) ∨ (m.live k = false ∧ k ∈ m.free)) ∧
      (m.size ≤ k.toNat → m.live k = false ∧ k ∉ m.free) ∧ m.live 0 = true

/-- R44: after a write, a read of that Word gives the value written and every other read, its faults too, is as
before. -/
def Obligations.ReadSeesTheLastWrite : Prop :=
  ∀ (m m' : Memory) (k j v : Word), m.wf → memWrite m k j v = .ok m' →
    ∀ k' j', memRead m' k' j' = if k' = k ∧ j' = j then .ok v else memRead m k' j'

/-- R48, R26: an id freed and then allocated again is the same id (last in, first out); it designates the new bank: reads
below the new length give 0 and those past it fault, whatever the bank held before; other banks are as before. -/
def Obligations.FreedIdIsReusedWithFreshZeros : Prop :=
  ∀ (cfg : Config) (m m1 m2 : Memory) (k n k' : Word), m.wf → abandon m k = .ok m1 → alloc cfg m1 n = .ok (k', m2) →
    k' = k ∧ m2.free = m.free ∧ m2.size = m.size ∧
      (∀ j : Word, memRead m2 k j = if j.toNat < n.toNat then .ok 0 else .error .offsetOutOfRange) ∧
      OtherBanksRead k m m2

/-- R47: after Replace0(k), bank 0 and bank k are independent copies: a write to either is not seen in the other, and
freeing k does not change bank 0. -/
def Obligations.LoadedProgramIsAnIndependentCopy : Prop :=
  ∀ (cfg : Config) (m m1 : Memory) (k : Word), m.wf → k ≠ 0 → replace0 cfg m k = .ok m1 →
    (∀ j, memRead m1 0 j = memRead m k j ∧ memRead m1 k j = memRead m k j) ∧
      (∀ i v m2, memWrite m1 k i v = .ok m2 → ∀ j, memRead m2 0 j = memRead m k j) ∧
      (∀ i v m2, memWrite m1 0 i v = .ok m2 → ∀ j, memRead m2 k j = memRead m k j) ∧
      ∀ m2, abandon m1 k = .ok m2 → ∀ j, memRead m2 0 j = memRead m k j

/-- R46, R102: a write to bank 0 is seen by the next fetch of that offset and by no other fetch; and a program that writes
the Word at the next offset of bank 0 executes the written Word at the very next step. -/
def Obligations.WrittenInstructionRunsNext : Prop :=
  (∀ (m m' : Memory) (j v : Word), m.wf → memWrite m 0 j v = .ok m' →
    ∀ f, fetch m' f = if f = j then .ok v else fetch m f) ∧
  ∀ (s : State) (w : Word) (a b c : RegIdx) (i : Instr), s.Inv → s.run = .running → fetch s.mem s.finger = .ok w →
    decode w = .ok (.aamd a b c) → s.reg a = 0 → s.reg b = s.finger + 1 →
    (s.finger + 1).toNat < (s.mem.bank 0).len → decode (s.reg c) = .ok i →
    ∃ t, step s = .next t ∧ t.finger = s.finger + 1 ∧ fetch t.mem t.finger = .ok (s.reg c) ∧
      step t = exec i { t with finger := t.finger + 1, result := some .continues }

/-- R103: after a LoadProgram with x[b] not 0 the next step fetches from the new bank 0 at the new finger. -/
def Obligations.LoadedProgramIsFetchedNext : Prop :=
  ∀ (s t : State) (w : Word) (b c : RegIdx), s.Inv → fetch s.mem s.finger = .ok w → decode w = .ok (.loadp b c) →
    s.reg b ≠ 0 → step s = .next t → t.run = .running →
    t.finger = s.reg c ∧
      fetch t.mem t.finger = if (s.reg c).toNat < (s.mem.bank (s.reg b)).len
        then .ok ((s.mem.bank (s.reg b)).read (s.reg c).toNat) else .error .fetchOutOfRange

/-- The model's canonical form (log 9): two well-formed banks of one length that read alike are equal data. -/
def Obligations.BanksThatReadAlikeAreEqual : Prop :=
  ∀ b b' : Bank, b.wellFormed = true → b'.wellFormed = true → b.len = b'.len →
    (∀ j, j < b.len → b.read j = b'.read j) → b = b'

/-! ## Invariants -/

/-- The state right after reset has the invariant of Safety.lean (R6, R17 to R21). -/
def Obligations.ResetStateHasTheInvariant : Prop := State.reset.Inv

/-- From every state with the invariant, reachable or not, a step that answers a next state gives one with it: the memory
keeps its canonical form, the free list holds ids in 1..N-1 once each and names empty slots, N stays within MAX_BANKS,
storage within MAX_STORAGE_WORDS, and the last result and token agree with the run state. -/
def Obligations.StepKeepsTheInvariant : Prop :=
  ∀ s t : State, s.Inv → step s = .next t → t.Inv

/-- Every sequence of the host's transactions keeps the invariant: from a block before its first reset with legal
parameters, or from any block with the invariant, whatever images and input bytes the host gives. -/
def Obligations.EveryTransactionRunKeepsTheInvariant : Prop :=
  ∀ (trs : List Transaction) (b b' : Block), b.Inv → transactAll b trs = .next b' → b'.Inv

/-! ## Inputter tokens (spec/10_state.md R24, spec/60_exceptions.md R92)

A token's identity is the model's (log 6), so these two are derived. -/

/-- R24: a token "can only be constructed by the engine": no transaction but a step makes a state wait for a token, that
token's serial is the count of the tokens created before, and no transaction lowers that count; so no token is created
twice. -/
def Obligations.EveryInputCreatesAFreshToken : Prop :=
  ∀ (s u : State) (tr : Transaction), transact (.up s) tr = .next (.up u) →
    s.issued ≤ u.issued ∧
      ∀ token, u.run = .awaitingInput token → tr = .step ∧ token.serial = s.issued ∧ u.issued = s.issued + 1

/-- R92, D13: a token works once. After `provide_input` has consumed it, or a reset has ended its Input, `provide_input`
with it has no transition, whatever transactions come between and whichever Input then waits, one on the same register
included. -/
def Obligations.ConsumedTokenIsNeverAcceptedAgain : Prop :=
  ∀ (s t : State) (token : Token), s.Inv →
    ((∃ v, provideInput token v s = .next t) ∨ (s.run = .awaitingInput token ∧ ∃ image, hostReset image s = .next t)) →
    ∀ (trs : List Transaction) (u : State), transactAll (.up t) trs = .next (.up u) →
      ∀ v, provideInput token v u = .refused .noInputPending ∨ provideInput token v u = .refused .notThePendingToken
end

