-- ==== Sys2Proof/Laws/Memory.lean ====
section
/-! SUPPORT. Laws/Memory.lean: reads after writes in one bank, and the canonical form that every memory operation keeps. -/

namespace Sys2Proof.Machine

/-! ## Cells -/

theorem cellsWellFormed_cons {lo len i : Nat} {u : Word} {rest : List (Nat × Word)} :
    cellsWellFormed lo len ((i, u) :: rest) = true ↔
      lo ≤ i ∧ i < len ∧ u ≠ 0 ∧ cellsWellFormed (i + 1) len rest = true := by
  simp [cellsWellFormed, and_assoc]

theorem cellsWellFormed_lower {lo lo' len : Nat} {cs : List (Nat × Word)} (h : cellsWellFormed lo len cs = true)
    (hlo : lo' ≤ lo) : cellsWellFormed lo' len cs = true := by
  cases cs with
  | nil => rfl
  | cons p rest =>
    obtain ⟨i, u⟩ := p
    rw [cellsWellFormed_cons] at h ⊢
    exact ⟨by omega, h.2⟩

/-- Below the first listed offset every Word is 0. -/
theorem cellsRead_below {lo len j : Nat} {cs : List (Nat × Word)} (h : cellsWellFormed lo len cs = true)
    (hj : j < lo) : cellsRead cs j = 0 := by
  induction cs generalizing lo with
  | nil => rfl
  | cons p rest ih =>
    obtain ⟨i, u⟩ := p
    obtain ⟨hlo, -, -, hrest⟩ := cellsWellFormed_cons.mp h
    rw [cellsRead, if_neg (by omega)]
    exact ih hrest (by omega)

/-- A write is read back. -/
theorem cellsRead_cellsWrite_same {lo len j : Nat} {v : Word} {cs : List (Nat × Word)}
    (h : cellsWellFormed lo len cs = true) : cellsRead (cellsWrite cs j v) j = v := by
  induction cs generalizing lo with
  | nil =>
    unfold cellsWrite
    split_ifs with hv
    · exact hv.symm
    · simp [cellsRead]
  | cons p rest ih =>
    obtain ⟨i, u⟩ := p
    obtain ⟨-, -, -, hrest⟩ := cellsWellFormed_cons.mp h
    unfold cellsWrite
    split_ifs with hlt hv heq hv
    · rw [cellsRead, if_neg (by omega), hv]
      exact cellsRead_below hrest (by omega)
    · simp [cellsRead]
    · rw [hv]
      exact cellsRead_below hrest (by omega)
    · simp [cellsRead]
    · rw [cellsRead, if_neg heq]
      exact ih hrest

/-- A write leaves every other offset alone. -/
theorem cellsRead_cellsWrite_other {j j' : Nat} (v : Word) (cs : List (Nat × Word)) (hne : j' ≠ j) :
    cellsRead (cellsWrite cs j v) j' = cellsRead cs j' := by
  induction cs with
  | nil =>
    unfold cellsWrite
    split_ifs with hv
    · rfl
    · simp [cellsRead, Ne.symm hne]
  | cons p rest ih =>
    obtain ⟨i, u⟩ := p
    unfold cellsWrite
    split_ifs with hlt hv heq hv
    · rfl
    · rw [cellsRead, if_neg (Ne.symm hne)]
    · rw [cellsRead, if_neg (by omega)]
    · rw [cellsRead, if_neg (Ne.symm hne), cellsRead, if_neg (by omega)]
    · simp only [cellsRead, ih]

theorem cellsWrite_wellFormed {lo len j : Nat} {v : Word} {cs : List (Nat × Word)}
    (h : cellsWellFormed lo len cs = true) (hlo : lo ≤ j) (hlen : j < len) :
    cellsWellFormed lo len (cellsWrite cs j v) = true := by
  induction cs generalizing lo with
  | nil =>
    unfold cellsWrite
    split_ifs with hv
    · rfl
    · exact cellsWellFormed_cons.mpr ⟨hlo, hlen, hv, rfl⟩
  | cons p rest ih =>
    obtain ⟨i, u⟩ := p
    obtain ⟨hi, hilen, hu, hrest⟩ := cellsWellFormed_cons.mp h
    unfold cellsWrite
    split_ifs with hlt hv heq hv
    · exact h
    · exact cellsWellFormed_cons.mpr ⟨hlo, hlen, hv, cellsWellFormed_cons.mpr ⟨by omega, hilen, hu, hrest⟩⟩
    · exact cellsWellFormed_lower hrest (by omega)
    · exact cellsWellFormed_cons.mpr ⟨hlo, hlen, hv, heq ▸ hrest⟩
    · exact cellsWellFormed_cons.mpr ⟨hi, hilen, hu, ih hrest (by omega)⟩

theorem cellsOfWords_wellFormed {lo len : Nat} (ws : List Word) (h : lo + ws.length ≤ len) :
    cellsWellFormed lo len (cellsOfWords lo ws) = true := by
  induction ws generalizing lo with
  | nil => rfl
  | cons v rest ih =>
    rw [List.length_cons] at h
    have hrest := ih (lo := lo + 1) (by omega)
    unfold cellsOfWords
    split_ifs with hv
    · exact cellsWellFormed_lower hrest (by omega)
    · exact cellsWellFormed_cons.mpr ⟨le_refl _, by omega, hv, hrest⟩

/-- The cells of a sequence of Words read as that sequence. -/
theorem cellsRead_cellsOfWords (lo i : Nat) (ws : List Word) :
    cellsRead (cellsOfWords lo ws) (lo + i) = ws.getD i 0 := by
  induction ws generalizing lo i with
  | nil => rfl
  | cons v rest ih =>
    have hbelow : cellsRead (cellsOfWords (lo + 1) rest) lo = 0 :=
      cellsRead_below (cellsOfWords_wellFormed rest (le_refl _)) (by omega)
    cases i with
    | zero =>
      unfold cellsOfWords
      split_ifs with hv
      · simpa [hv] using hbelow
      · simp [cellsRead]
    | succ i =>
      have hnext := ih (lo + 1) i
      rw [show lo + 1 + i = lo + (i + 1) by omega] at hnext
      unfold cellsOfWords
      split_ifs with hv
      · simpa using hnext
      · rw [cellsRead, if_neg (by omega)]
        simpa using hnext

/-! ## Banks -/

theorem Bank.wellFormed_iff {b : Bank} :
    b.wellFormed = true ↔ b.len ≤ 4294967295 ∧ cellsWellFormed 0 b.len b.cells = true := by
  simp [Bank.wellFormed]

@[simp] theorem Bank.empty_len : Bank.empty.len = 0 := rfl
@[simp] theorem Bank.zeros_len (n : Nat) : (Bank.zeros n).len = n := rfl
@[simp] theorem Bank.zeros_read (n j : Nat) : (Bank.zeros n).read j = 0 := rfl
@[simp] theorem Bank.ofWords_len (ws : List Word) : (Bank.ofWords ws).len = ws.length := rfl
@[simp] theorem Bank.write_len (b : Bank) (j : Nat) (v : Word) : (b.write j v).len = b.len := rfl

theorem Bank.empty_wellFormed : Bank.empty.wellFormed = true := by decide

theorem Bank.zeros_wellFormed {n : Nat} (h : n ≤ 4294967295) : (Bank.zeros n).wellFormed = true :=
  Bank.wellFormed_iff.mpr ⟨h, rfl⟩

theorem Bank.ofWords_wellFormed {ws : List Word} (h : ws.length ≤ 4294967295) : (Bank.ofWords ws).wellFormed = true :=
  Bank.wellFormed_iff.mpr ⟨h, cellsOfWords_wellFormed ws (by simp)⟩

/-- Bank 0 after a reset reads as the image (R29). -/
theorem Bank.ofWords_read (ws : List Word) (j : Nat) : (Bank.ofWords ws).read j = ws.getD j 0 := by
  simpa [Bank.ofWords, Bank.read] using cellsRead_cellsOfWords 0 j ws

theorem Bank.write_wellFormed {b : Bank} {j : Nat} {v : Word} (h : b.wellFormed = true) (hj : j < b.len) :
    (b.write j v).wellFormed = true := by
  obtain ⟨hlen, hcells⟩ := Bank.wellFormed_iff.mp h
  exact Bank.wellFormed_iff.mpr ⟨hlen, cellsWrite_wellFormed hcells (Nat.zero_le _) hj⟩

theorem Bank.read_write_same {b : Bank} {j : Nat} {v : Word} (h : b.wellFormed = true) : (b.write j v).read j = v :=
  cellsRead_cellsWrite_same (Bank.wellFormed_iff.mp h).2

theorem Bank.read_write_other {j j' : Nat} (b : Bank) (v : Word) (hne : j' ≠ j) :
    (b.write j v).read j' = b.read j' :=
  cellsRead_cellsWrite_other v b.cells hne

/-! ## The bank table -/

/-- Liveness is a place in the table that is not on the free list (R22). -/
theorem Memory.live_iff {m : Memory} {k : Word} : m.live k = true ↔ k.toNat < m.banks.length ∧ k ∉ m.free := by
  simp [Memory.live, Memory.size]

@[simp] theorem Memory.setBank_free (m : Memory) (k : Word) (b : Bank) : (m.setBank k b).free = m.free := rfl

@[simp] theorem Memory.setBank_length (m : Memory) (k : Word) (b : Bank) :
    (m.setBank k b).banks.length = m.banks.length := by
  simp [Memory.setBank]

/-- Changing a slot's contents changes no id's liveness. -/
@[simp] theorem Memory.setBank_live (m : Memory) (k k' : Word) (b : Bank) : (m.setBank k b).live k' = m.live k' := by
  simp [Memory.live, Memory.size]

theorem getD_set_same {α : Type} (l : List α) (i : Nat) (b d : α) (h : i < l.length) : (l.set i b).getD i d = b := by
  simp [List.getD_eq_getElem?_getD, h]

theorem getD_set_other {α : Type} (l : List α) (i i' : Nat) (b d : α) (h : i' ≠ i) :
    (l.set i b).getD i' d = l.getD i' d := by
  simp [List.getD_eq_getElem?_getD, List.getElem?_set_ne (Ne.symm h)]

theorem Memory.bank_setBank_same {m : Memory} {k : Word} (b : Bank) (h : k.toNat < m.banks.length) :
    (m.setBank k b).bank k = b :=
  getD_set_same _ _ _ _ h

theorem Memory.bank_setBank_other (m : Memory) {k k' : Word} (b : Bank) (h : k' ≠ k) :
    (m.setBank k b).bank k' = m.bank k' :=
  getD_set_other _ _ _ _ _ (fun e => h (BitVec.eq_of_toNat_eq e))

theorem Memory.bank_mem {m : Memory} {k : Word} (h : k.toNat < m.banks.length) : m.bank k ∈ m.banks := by
  simp [Memory.bank, List.getD_eq_getElem?_getD, h]

/-- `Memory.wf` in the words of R17 to R20. -/
theorem Memory.wf_iff {m : Memory} :
    m.wf ↔ 0 < m.banks.length ∧ m.banks.length ≤ 4294967296 ∧ (∀ b ∈ m.banks, b.wellFormed = true) ∧ m.free.Nodup ∧
      ∀ k ∈ m.free, k ≠ 0 ∧ k.toNat < m.banks.length ∧ m.bank k = Bank.empty := by
  simp only [Memory.wf, Memory.size, Memory.freeIdOk, List.all_eq_true, Bool.and_eq_true, bne_iff_ne, decide_eq_true_eq,
    and_assoc]

/-- Every slot of a well-formed memory is a well-formed bank. -/
theorem Memory.bank_wellFormed {m : Memory} (h : m.wf) (k : Word) : (m.bank k).wellFormed = true := by
  by_cases hk : k.toNat < m.banks.length
  · exact (Memory.wf_iff.mp h).2.2.1 _ (Memory.bank_mem hk)
  · simpa [Memory.bank, List.getD_eq_getElem?_getD, List.getElem?_eq_none (not_lt.mp hk)] using Bank.empty_wellFormed

/-- Bank 0 is live (R18). -/
theorem Memory.live_zero {m : Memory} (h : m.wf) : m.live 0 = true :=
  Memory.live_iff.mpr ⟨by simpa using h.1, fun hmem => ((Memory.wf_iff.mp h).2.2.2.2 0 hmem).1 rfl⟩

theorem banks_set_wellFormed {bs : List Bank} {i : Nat} {b : Bank} (h : ∀ x ∈ bs, x.wellFormed = true)
    (hb : b.wellFormed = true) : ∀ x ∈ bs.set i b, x.wellFormed = true := by
  intro x hx
  rcases List.mem_or_eq_of_mem_set hx with hmem | rfl
  · exact h x hmem
  · exact hb

/-- New contents for a live slot keep the canonical form. -/
theorem Memory.setBank_wf {m : Memory} {k : Word} {b : Bank} (h : m.wf) (hk : m.live k = true)
    (hb : b.wellFormed = true) : (m.setBank k b).wf := by
  rw [Memory.wf_iff] at h ⊢
  refine ⟨by simpa using h.1, by simpa using h.2.1, banks_set_wellFormed h.2.2.1 hb, h.2.2.2.1, fun k' hk' => ?_⟩
  obtain ⟨hne, hlt, hempty⟩ := h.2.2.2.2 k' hk'
  have hkk : k' ≠ k := fun e => (Memory.live_iff.mp hk).2 (e ▸ hk')
  exact ⟨hne, by simpa using hlt, by rw [Memory.bank_setBank_other m b hkk]; exact hempty⟩

end Sys2Proof.Machine
end

