-- ==== Sys2Proof/Laws/State.lean ====
section
/-! SUPPORT. Laws/State.lean: what each update of a state does to each field, and how a register read sees a register
write. Nothing after this file unfolds a record update. -/

namespace Sys2Proof.Machine

section setReg
variable (s : State) (i j : RegIdx) (v : Word)

@[simp] theorem State.setReg_cfg : (s.setReg i v).cfg = s.cfg := rfl
@[simp] theorem State.setReg_finger : (s.setReg i v).finger = s.finger := rfl
@[simp] theorem State.setReg_mem : (s.setReg i v).mem = s.mem := rfl
@[simp] theorem State.setReg_run : (s.setReg i v).run = s.run := rfl
@[simp] theorem State.setReg_result : (s.setReg i v).result = s.result := rfl
@[simp] theorem State.setReg_outputs : (s.setReg i v).outputs = s.outputs := rfl
@[simp] theorem State.setReg_issued : (s.setReg i v).issued = s.issued := rfl

/-- A register write is seen in that register only (R14: no register is aliased). -/
theorem State.reg_setReg : (s.setReg i v).reg j = if i = j then v else s.reg j := by
  simp only [State.reg, State.setReg, Vector.getElem_set, BitVec.toNat_inj]

@[simp] theorem State.reg_setReg_same : (s.setReg i v).reg i = v := by
  simp [State.reg_setReg]

theorem State.reg_setReg_other (h : j ≠ i) : (s.setReg i v).reg j = s.reg j := by
  rw [State.reg_setReg, if_neg (Ne.symm h)]

end setReg

/-- A register read depends on the register file alone. -/
theorem State.reg_congr {s t : State} (h : t.regs = s.regs) (i : RegIdx) : t.reg i = s.reg i := by
  simp only [State.reg, h]

/-- Register files that read alike are equal. -/
theorem State.regs_ext {s t : State} (h : ∀ i, t.reg i = s.reg i) : t.regs = s.regs := by
  apply Vector.ext
  intro i hi
  simpa [State.reg, Nat.mod_eq_of_lt hi] using h (BitVec.ofNat 3 i)

section raise
variable (s : State) (f : Fault) (pos : Word) (word : Option Word)

@[simp] theorem State.raise_cfg : (s.raise f pos word).cfg = s.cfg := rfl
@[simp] theorem State.raise_regs : (s.raise f pos word).regs = s.regs := rfl
@[simp] theorem State.raise_reg (i : RegIdx) : (s.raise f pos word).reg i = s.reg i := rfl
@[simp] theorem State.raise_finger : (s.raise f pos word).finger = s.finger := rfl
@[simp] theorem State.raise_mem : (s.raise f pos word).mem = s.mem := rfl
@[simp] theorem State.raise_run : (s.raise f pos word).run = .faulted f pos word := rfl
@[simp] theorem State.raise_result : (s.raise f pos word).result = some (.fault f pos word) := rfl
@[simp] theorem State.raise_outputs : (s.raise f pos word).outputs = s.outputs := rfl
@[simp] theorem State.raise_issued : (s.raise f pos word).issued = s.issued := rfl

@[simp] theorem State.raiseInArm_cfg : (s.raiseInArm f).cfg = s.cfg := rfl
@[simp] theorem State.raiseInArm_regs : (s.raiseInArm f).regs = s.regs := rfl
@[simp] theorem State.raiseInArm_reg (i : RegIdx) : (s.raiseInArm f).reg i = s.reg i := rfl
@[simp] theorem State.raiseInArm_finger : (s.raiseInArm f).finger = s.finger := rfl
@[simp] theorem State.raiseInArm_mem : (s.raiseInArm f).mem = s.mem := rfl
@[simp] theorem State.raiseInArm_run : (s.raiseInArm f).run = .faulted f s.stepPos s.stepWord := rfl
@[simp] theorem State.raiseInArm_result : (s.raiseInArm f).result = some (.fault f s.stepPos s.stepWord) := rfl
@[simp] theorem State.raiseInArm_outputs : (s.raiseInArm f).outputs = s.outputs := rfl
@[simp] theorem State.raiseInArm_issued : (s.raiseInArm f).issued = s.issued := rfl

end raise

section orRaise
variable {α : Type} (s : State) (v : α) (f : Fault) (k : α → State)

@[simp] theorem State.orRaise_ok : s.orRaise (.ok v) k = k v := rfl
@[simp] theorem State.orRaise_error : s.orRaise (.error f) k = s.raiseInArm f := rfl

end orRaise

section advance
variable (s : State)

@[simp] theorem State.advance_cfg : s.advance.cfg = s.cfg := rfl
@[simp] theorem State.advance_regs : s.advance.regs = s.regs := rfl
@[simp] theorem State.advance_reg (i : RegIdx) : s.advance.reg i = s.reg i := rfl
@[simp] theorem State.advance_finger : s.advance.finger = s.finger + 1 := rfl
@[simp] theorem State.advance_mem : s.advance.mem = s.mem := rfl
@[simp] theorem State.advance_run : s.advance.run = s.run := rfl
@[simp] theorem State.advance_result : s.advance.result = some .continues := rfl
@[simp] theorem State.advance_outputs : s.advance.outputs = s.outputs := rfl
@[simp] theorem State.advance_issued : s.advance.issued = s.issued := rfl

/-- An arm sees the finger of the step's beginning (R80). -/
@[simp] theorem State.advance_stepPos : s.advance.stepPos = s.finger := by
  simp [State.stepPos]

/-- An arm sees the fetched Word (R80). -/
@[simp] theorem State.advance_stepWord : s.advance.stepWord = (fetch s.mem s.finger).toOption := by
  simp [State.stepWord]

end advance

end Sys2Proof.Machine
end

