-- ==== Sys2Proof/Laws/Ops.lean ====
section
/-! SUPPORT. Laws/Ops.lean: for each operation of Machine/Ops.lean one lemma that says once everything it can do, and that
each keeps the canonical form of memory. -/

namespace Sys2Proof.Machine

/-! ## What each operation answers -/

/-- All that MemRead can answer (R33). -/
theorem memRead_cases (m : Memory) (k j : Word) :
    (m.live k = true ∧ j.toNat < (m.bank k).len ∧ memRead m k j = .ok ((m.bank k).read j.toNat)) ∨
    (m.live k = true ∧ (m.bank k).len ≤ j.toNat ∧ memRead m k j = .error .offsetOutOfRange) ∨
    (m.live k = false ∧ memRead m k j = .error .bankNotLive) := by
  unfold memRead
  by_cases hk : m.live k = true
  · by_cases hj : j.toNat < (m.bank k).len
    · exact .inl ⟨hk, hj, by rw [if_pos hk, if_pos hj]⟩
    · exact .inr (.inl ⟨hk, not_lt.mp hj, by rw [if_pos hk, if_neg hj]⟩)
  · exact .inr (.inr ⟨by simpa using hk, by rw [if_neg hk]⟩)

/-- All that MemWrite can answer (R34). -/
theorem memWrite_cases (m : Memory) (k j v : Word) :
    (m.live k = true ∧ j.toNat < (m.bank k).len ∧
      memWrite m k j v = .ok (m.setBank k ((m.bank k).write j.toNat v))) ∨
    (m.live k = true ∧ (m.bank k).len ≤ j.toNat ∧ memWrite m k j v = .error .offsetOutOfRange) ∨
    (m.live k = false ∧ memWrite m k j v = .error .bankNotLive) := by
  unfold memWrite
  by_cases hk : m.live k = true
  · by_cases hj : j.toNat < (m.bank k).len
    · exact .inl ⟨hk, hj, by rw [if_pos hk, if_pos hj]⟩
    · exact .inr (.inl ⟨hk, not_lt.mp hj, by rw [if_pos hk, if_neg hj]⟩)
  · exact .inr (.inr ⟨by simpa using hk, by rw [if_neg hk]⟩)

/-- All that Alloc can answer (R35). -/
theorem alloc_cases (cfg : Config) (m : Memory) (n : Word) :
    (overStorage cfg (m.storageInUse + n.toNat) = true ∧ alloc cfg m n = .error .storageExhausted) ∨
    (overStorage cfg (m.storageInUse + n.toNat) = false ∧ m.free = [] ∧ m.banks.length = cfg.maxBanks ∧
      alloc cfg m n = .error .bankIdsExhausted) ∨
    (overStorage cfg (m.storageInUse + n.toNat) = false ∧ m.free = [] ∧ m.banks.length ≠ cfg.maxBanks ∧
      alloc cfg m n =
        .ok (BitVec.ofNat 32 m.banks.length, { banks := m.banks ++ [Bank.zeros n.toNat], free := [] })) ∨
    (overStorage cfg (m.storageInUse + n.toNat) = false ∧ ∃ k rest, m.free = k :: rest ∧
      alloc cfg m n = .ok (k, { banks := m.banks.set k.toNat (Bank.zeros n.toNat), free := rest })) := by
  unfold alloc
  by_cases ho : overStorage cfg (m.storageInUse + n.toNat) = true
  · exact .inl ⟨ho, by rw [if_pos ho]⟩
  · have hf : overStorage cfg (m.storageInUse + n.toNat) = false := by simpa using ho
    rw [if_neg ho]
    cases hfree : m.free with
    | nil =>
      by_cases hN : m.banks.length = cfg.maxBanks
      · exact .inr (.inl ⟨hf, rfl, hN, by simp [Memory.size, hN]⟩)
      · exact .inr (.inr (.inl ⟨hf, rfl, hN, by simp [Memory.size, hN]⟩))
    | cons k rest => exact .inr (.inr (.inr ⟨hf, k, rest, rfl, rfl⟩))

/-- All that Free can answer (R36). -/
theorem abandon_cases (m : Memory) (k : Word) :
    (k = 0 ∧ abandon m k = .error .abandonBank0) ∨
    (k ≠ 0 ∧ m.live k = true ∧ abandon m k = .ok { banks := m.banks.set k.toNat Bank.empty, free := k :: m.free }) ∨
    (k ≠ 0 ∧ m.live k = false ∧ abandon m k = .error .abandonNotLive) := by
  unfold abandon
  by_cases h0 : k = 0
  · exact .inl ⟨h0, by rw [if_pos h0]⟩
  · by_cases hk : m.live k = true
    · exact .inr (.inl ⟨h0, hk, by rw [if_neg h0, if_pos hk]⟩)
    · exact .inr (.inr ⟨h0, by simpa using hk, by rw [if_neg h0, if_neg hk]⟩)

/-- All that Replace0 can answer (R37). -/
theorem replace0_cases (cfg : Config) (m : Memory) (k : Word) :
    (m.live k = true ∧ overStorage cfg (m.storageInUse - (m.bank 0).len + (m.bank k).len) = false ∧
      replace0 cfg m k = .ok (m.setBank 0 (m.bank k))) ∨
    (m.live k = true ∧ overStorage cfg (m.storageInUse - (m.bank 0).len + (m.bank k).len) = true ∧
      replace0 cfg m k = .error .storageExhausted) ∨
    (m.live k = false ∧ replace0 cfg m k = .error .bankNotLive) := by
  unfold replace0
  by_cases hk : m.live k = true
  · by_cases ho : overStorage cfg (m.storageInUse - (m.bank 0).len + (m.bank k).len) = true
    · exact .inr (.inl ⟨hk, ho, by rw [if_pos hk, if_pos ho]⟩)
    · exact .inl ⟨hk, by simpa using ho, by rw [if_pos hk, if_neg ho]⟩
  · exact .inr (.inr ⟨by simpa using hk, by rw [if_neg hk]⟩)

/-- All that Fetch can answer (R38). -/
theorem fetch_cases (m : Memory) (f : Word) :
    (f.toNat < (m.bank 0).len ∧ fetch m f = .ok ((m.bank 0).read f.toNat)) ∨
    ((m.bank 0).len ≤ f.toNat ∧ fetch m f = .error .fetchOutOfRange) := by
  unfold fetch
  by_cases hf : f.toNat < (m.bank 0).len
  · exact .inl ⟨hf, by rw [if_pos hf]⟩
  · exact .inr ⟨not_lt.mp hf, by rw [if_neg hf]⟩

/-! ## Every memory operation keeps the canonical form -/

theorem memWrite_wf {m m' : Memory} {k j v : Word} (h : m.wf) (hw : memWrite m k j v = .ok m') : m'.wf := by
  rcases memWrite_cases m k j v with ⟨hk, hj, he⟩ | ⟨-, -, he⟩ | ⟨-, he⟩
  · rw [he] at hw
    cases hw
    exact Memory.setBank_wf h hk (Bank.write_wellFormed (Memory.bank_wellFormed h k) hj)
  · rw [he] at hw; cases hw
  · rw [he] at hw; cases hw

/-- Alloc keeps the canonical form when N is below 2^32 or an id is free, as R6's bound on MAX_BANKS has it. -/
theorem alloc_wf {cfg : Config} {m m' : Memory} {n k : Word} (h : m.wf) (hcfg : cfg.wellFormed = true)
    (hN : m.banks.length ≤ cfg.maxBanks) (ha : alloc cfg m n = .ok (k, m')) : m'.wf := by
  have hzeros : (Bank.zeros n.toNat).wellFormed = true := Bank.zeros_wellFormed (by have := n.isLt; omega)
  rcases alloc_cases cfg m n with ⟨-, he⟩ | ⟨-, -, -, he⟩ | ⟨-, -, hne, he⟩ | ⟨-, k', rest, hfree, he⟩
  · rw [he] at ha; cases ha
  · rw [he] at ha; cases ha
  · rw [he] at ha
    cases ha
    simp only [Config.wellFormed, Bool.and_eq_true, decide_eq_true_eq] at hcfg
    rw [Memory.wf_iff] at h ⊢
    refine ⟨by simp, by simp; omega, fun b hb => ?_, List.nodup_nil, fun _ hx => absurd hx List.not_mem_nil⟩
    rcases List.mem_append.mp hb with hb | hb
    · exact h.2.2.1 b hb
    · rw [List.mem_singleton.mp hb]; exact hzeros
  · rw [he] at ha
    cases ha
    rw [Memory.wf_iff] at h ⊢
    have hnodup := h.2.2.2.1
    rw [hfree, List.nodup_cons] at hnodup
    refine ⟨by simpa using h.1, by simpa using h.2.1, banks_set_wellFormed h.2.2.1 hzeros, hnodup.2, fun x hx => ?_⟩
    obtain ⟨hx0, hxlt, hxe⟩ := h.2.2.2.2 x (by rw [hfree]; exact List.mem_cons_of_mem _ hx)
    have hne : x ≠ k := fun e => hnodup.1 (e ▸ hx)
    exact ⟨hx0, by simpa using hxlt, (Memory.bank_setBank_other m (Bank.zeros n.toNat) hne).trans hxe⟩

theorem abandon_wf {m m' : Memory} {k : Word} (h : m.wf) (ha : abandon m k = .ok m') : m'.wf := by
  rcases abandon_cases m k with ⟨-, he⟩ | ⟨h0, hk, he⟩ | ⟨-, -, he⟩
  · rw [he] at ha; cases ha
  · rw [he] at ha
    cases ha
    obtain ⟨hlt, hmem⟩ := Memory.live_iff.mp hk
    rw [Memory.wf_iff] at h ⊢
    refine ⟨by simpa using h.1, by simpa using h.2.1, banks_set_wellFormed h.2.2.1 Bank.empty_wellFormed,
      List.nodup_cons.mpr ⟨hmem, h.2.2.2.1⟩, fun x hx => ?_⟩
    rcases List.mem_cons.mp hx with rfl | hx
    · exact ⟨h0, by simpa using hlt, Memory.bank_setBank_same Bank.empty hlt⟩
    · obtain ⟨hx0, hxlt, hxe⟩ := h.2.2.2.2 x hx
      have hne : x ≠ k := fun e => hmem (e ▸ hx)
      exact ⟨hx0, by simpa using hxlt, (Memory.bank_setBank_other m Bank.empty hne).trans hxe⟩
  · rw [he] at ha; cases ha

theorem replace0_wf {cfg : Config} {m m' : Memory} {k : Word} (h : m.wf) (hr : replace0 cfg m k = .ok m') : m'.wf := by
  rcases replace0_cases cfg m k with ⟨hk, -, he⟩ | ⟨-, -, he⟩ | ⟨-, he⟩
  · rw [he] at hr
    cases hr
    exact Memory.setBank_wf h (Memory.live_zero h) (Memory.bank_wellFormed h k)
  · rw [he] at hr; cases hr
  · rw [he] at hr; cases hr

/-- The memory right after reset has the canonical form. -/
theorem reset_mem_wf : State.reset.mem.wf := by decide

/-! ## Storage -/

/-- In a well-formed memory a slot that is not live is empty, so the live banks' lengths are all the lengths (R21). -/
theorem Memory.storageInUse_eq_sum {m : Memory} (h : m.wf) : m.storageInUse = (m.banks.map Bank.len).sum := by
  have hw := Memory.wf_iff.mp h
  have key : ∀ p ∈ m.banks.zipIdx,
      (if m.live (BitVec.ofNat 32 p.2) then p.1.len else 0) = p.1.len := by
    intro p hp
    obtain ⟨b, i⟩ := p
    have hget := List.mem_zipIdx_iff_getElem?.mp hp
    have hlt : i < m.banks.length := (List.getElem?_eq_some_iff.mp hget).1
    have hnat : (BitVec.ofNat 32 i).toNat = i := by
      have := hw.2.1
      simp [Nat.mod_eq_of_lt (show i < 4294967296 by omega)]
    by_cases hlive : m.live (BitVec.ofNat 32 i) = true
    · rw [if_pos hlive]
    · rw [if_neg hlive]
      have hfree : BitVec.ofNat 32 i ∈ m.free := by
        by_contra hn
        exact hlive (Memory.live_iff.mpr ⟨by rw [hnat]; exact hlt, hn⟩)
      have hempty := (hw.2.2.2.2 _ hfree).2.2
      have hb : m.bank (BitVec.ofNat 32 i) = b := by
        rw [Memory.bank, hnat, List.getD_eq_getElem?_getD, hget]; rfl
      rw [← hb, hempty]
      rfl
  rw [Memory.storageInUse, List.map_congr_left key]
  congr 1
  rw [← List.zipIdx_map_fst 0 m.banks, List.map_map, List.zipIdx_map_fst]
  rfl

end Sys2Proof.Machine
end

