-- ==== Sys2Proof/Laws/Exec.lean ====
section
/-! SUPPORT. Laws/Exec.lean: what the ALU, an arm and the step can do, each said once. -/

namespace Sys2Proof.Machine

/-! ## The ALU -/

@[simp] theorem alu_add (x y : Word) : alu .add x y = some (x + y) := rfl
@[simp] theorem alu_mul (x y : Word) : alu .mul x y = some (x * y) := rfl
@[simp] theorem alu_nand (x y : Word) : alu .nand x y = some (~~~(x &&& y)) := rfl

@[simp] theorem alu_div_zero (x : Word) : alu .div x 0 = none := by simp [alu, divByZero]

theorem alu_div {x y : Word} (h : y ≠ 0) : alu .div x y = some (x / y) := by
  have hz : divByZero .div y = false := by simpa [divByZero] using h
  simp [alu, hz]

/-- All that an ALU instruction can do. -/
theorem aluToReg_cases (op : AluOp) (a b c : RegIdx) (s : State) :
    (∃ v, alu op (s.reg b) (s.reg c) = some v ∧ aluToReg op a b c s = s.setReg a v) ∨
    (alu op (s.reg b) (s.reg c) = none ∧ aluToReg op a b c s = s.raiseInArm .divideByZero) := by
  unfold aluToReg
  cases alu op (s.reg b) (s.reg c) with
  | some v => exact .inl ⟨v, rfl, rfl⟩
  | none => exact .inr ⟨rfl, rfl⟩

/-! ## The arms -/

@[simp] theorem State.newToken_reg (s : State) (c : RegIdx) : (s.newToken c).reg = c := rfl
@[simp] theorem State.newToken_serial (s : State) (c : RegIdx) : (s.newToken c).serial = s.issued := rfl

/-- All that an arm can do to a state: nothing, a register write, a fault, a bank operation that succeeded, a jump, or
one of the three results of spec/42_control_io.md. -/
inductive ArmEffect (s : State) : State → Prop where
  | nothing : ArmEffect s s
  | register (a : RegIdx) (v : Word) : ArmEffect s (s.setReg a v)
  | fault (f : Fault) : ArmEffect s (s.raiseInArm f)
  | written {k j v : Word} {m : Memory} (h : memWrite s.mem k j v = .ok m) : ArmEffect s { s with mem := m }
  | allocated {n k : Word} {m : Memory} (b : RegIdx) (h : alloc s.cfg s.mem n = .ok (k, m)) :
      ArmEffect s (State.setReg { s with mem := m } b k)
  | abandoned {k : Word} {m : Memory} (h : abandon s.mem k = .ok m) : ArmEffect s { s with mem := m }
  | jumped (p : Word) : ArmEffect s { s with finger := p }
  | loaded {k : Word} {m : Memory} (p : Word) (h : replace0 s.cfg s.mem k = .ok m) :
      ArmEffect s { s with mem := m, finger := p }
  | halted : ArmEffect s { s with run := .halted, result := some .halted }
  | output (byte : Byte) :
      ArmEffect s { s with result := some (.output byte), outputs := s.outputs ++ [byte] }
  | inputNeeded (c : RegIdx) :
      ArmEffect s { s with
        run := .awaitingInput (s.newToken c), result := some (.inputNeeded (s.newToken c)), issued := s.issued + 1 }

theorem aluToReg_effect (op : AluOp) (a b c : RegIdx) (s : State) : ArmEffect s (aluToReg op a b c s) := by
  rcases aluToReg_cases op a b c s with ⟨v, -, h⟩ | ⟨-, h⟩ <;> rw [h]
  · exact .register a v
  · exact .fault .divideByZero

/-- Every arm answers a next state, with one of the effects of `ArmEffect`: no arm faults or refuses. -/
theorem exec_effect (i : Instr) (s : State) : ∃ t, exec i s = .next t ∧ ArmEffect s t := by
  cases i with
  | cmov a b c =>
    refine ⟨_, rfl, ?_⟩
    split
    · exact .register a _
    · exact .nothing
  | aidx a b c =>
    refine ⟨_, rfl, ?_⟩
    cases memRead s.mem (s.reg b) (s.reg c) with
    | ok v => exact .register a v
    | error f => exact .fault f
  | aamd a b c =>
    refine ⟨_, rfl, ?_⟩
    cases h : memWrite s.mem (s.reg a) (s.reg b) (s.reg c) with
    | ok m => exact .written h
    | error f => exact .fault f
  | add a b c => exact ⟨_, rfl, aluToReg_effect .add a b c s⟩
  | mul a b c => exact ⟨_, rfl, aluToReg_effect .mul a b c s⟩
  | div a b c => exact ⟨_, rfl, aluToReg_effect .div a b c s⟩
  | nand a b c => exact ⟨_, rfl, aluToReg_effect .nand a b c s⟩
  | halt => exact ⟨_, rfl, .halted⟩
  | alloc b c =>
    refine ⟨_, rfl, ?_⟩
    cases h : alloc s.cfg s.mem (s.reg c) with
    | ok r => exact .allocated b h
    | error f => exact .fault f
  | aband c =>
    refine ⟨_, rfl, ?_⟩
    cases h : abandon s.mem (s.reg c) with
    | ok m => exact .abandoned h
    | error f => exact .fault f
  | out c => exact ⟨_, rfl, .output _⟩
  | inp c => exact ⟨_, rfl, .inputNeeded c⟩
  | loadp b c =>
    refine ⟨_, rfl, ?_⟩
    split
    · exact .jumped _
    · cases h : replace0 s.cfg s.mem (s.reg b) with
      | ok m => exact .loaded _ h
      | error f => exact .fault f
  | ortho a imm => exact ⟨_, rfl, .register a _⟩

theorem exec_next_effect {i : Instr} {s t : State} (h : exec i s = .next t) : ArmEffect s t := by
  obtain ⟨t', ht', he⟩ := exec_effect i s
  rw [ht'] at h
  cases h
  exact he

/-! ## The step -/

/-- All that a step can do when it answers a next state (R61): a fetch fault, a decode fault, or the arm of the decoded
instruction in the advanced state. -/
theorem step_next_cases {s t : State} (h : step s = .next t) :
    s.run = .running ∧
      (((s.mem.bank 0).len ≤ s.finger.toNat ∧ t = s.raise .fetchOutOfRange s.finger none) ∨
        ∃ w, fetch s.mem s.finger = .ok w ∧
          ((∃ e, decode w = .error e ∧ t = s.raise .invalidOpcode s.finger (some w)) ∨
            ∃ i, decode w = .ok i ∧ exec i s.advance = .next t)) := by
  unfold step at h
  cases hrun : s.run with
  | running =>
    refine ⟨rfl, ?_⟩
    simp only [hrun, stepRunning] at h
    rcases fetch_cases s.mem s.finger with ⟨-, hf⟩ | ⟨hlen, hf⟩
    · refine .inr ⟨_, hf, ?_⟩
      cases hd : decode ((s.mem.bank 0).read s.finger.toNat) with
      | error e =>
        simp only [hf, hd] at h
        cases h
        exact .inl ⟨e, rfl, rfl⟩
      | ok i =>
        simp only [hf, hd] at h
        exact .inr ⟨i, rfl, h⟩
    · simp only [hf] at h
      cases h
      exact .inl ⟨hlen, rfl⟩
  | awaitingInput token => rw [hrun] at h; cases h
  | halted => rw [hrun] at h; cases h
  | faulted f pos word => rw [hrun] at h; cases h

end Sys2Proof.Machine
end

