-- ==== Sys2Proof/Laws/HostPort.lean ====
section
/-! SUPPORT. Laws/HostPort.lean: what reset and `provideInput` can answer, each said once, and that the instruction
`withFetchWord` places is the one the next step fetches. -/

namespace Sys2Proof.Machine

/-- All that a reset can answer (R96, R97, log 8). -/
theorem resetWith_cases (cfg : Config) (image : List Word) (issued : Nat) :
    (image.length ≤ 4294967295 ∧ overStorage cfg image.length = false ∧
      resetWith cfg image issued = .next (resetState cfg image issued)) ∨
    (image.length ≤ 4294967295 ∧ overStorage cfg image.length = true ∧
      resetWith cfg image issued = .refused .imageOverStorage) ∨
    (4294967295 < image.length ∧ resetWith cfg image issued = .refused .imageTooLong) := by
  unfold resetWith imageWellFormed
  by_cases hlen : image.length ≤ 4294967295
  · cases ho : overStorage cfg image.length with
    | false => exact .inl ⟨hlen, rfl, by simp [hlen]⟩
    | true => exact .inr (.inl ⟨hlen, rfl, by simp [hlen]⟩)
  · exact .inr (.inr ⟨not_le.mp hlen, by simp [hlen]⟩)

/-- `State.reset` is the reset with the empty image and unbounded parameters (log 1, log 7). -/
theorem resetWith_empty : resetWith Config.unbounded [] = .next State.reset := rfl

/-- The memory of a reset has the canonical form (R29). -/
theorem resetState_mem_wf {image : List Word} (cfg : Config) (issued : Nat) (h : image.length ≤ 4294967295) :
    (resetState cfg image issued).mem.wf := by
  rw [Memory.wf_iff]
  refine ⟨by simp [resetState], by simp [resetState], fun b hb => ?_, List.nodup_nil, fun _ hk => absurd hk List.not_mem_nil⟩
  rw [List.mem_singleton.mp hb]
  exact Bank.ofWords_wellFormed h

/-- All that `provideInput` can do when it answers a next state (R78, R92). -/
theorem provideInput_next_cases {token : Token} {v : Option Byte} {s t : State} (h : provideInput token v s = .next t) :
    s.run = .awaitingInput token ∧ t = { s.setReg token.reg (inputWord v) with run := .running } := by
  unfold provideInput at h
  cases hrun : s.run with
  | awaitingInput pending =>
    simp only [hrun] at h
    split at h
    · next hc =>
      subst hc
      cases h
      exact ⟨rfl, rfl⟩
    · cases h
  | running => simp only [hrun] at h; cases h
  | halted => simp only [hrun] at h; cases h
  | faulted f pos word => simp only [hrun] at h; cases h

/-- All that a reset of a block can do when it answers a next state (R96, R97). -/
theorem hostReset_next_cases {image : List Word} {s t : State} (h : hostReset image s = .next t) :
    image.length ≤ 4294967295 ∧ overStorage s.cfg image.length = false ∧ t = resetState s.cfg image s.issued := by
  unfold hostReset at h
  rcases resetWith_cases s.cfg image s.issued with ⟨hl, ho, e⟩ | ⟨-, -, e⟩ | ⟨-, e⟩ <;> rw [e] at h <;> cases h
  exact ⟨hl, ho, rfl⟩

theorem upOutcome_next_cases {o : Host.Outcome State Fault Refusal} {b : Block} (h : upOutcome o = .next b) :
    ∃ t, o = .next t ∧ b = .up t := by
  cases o with
  | next t => cases h; exact ⟨t, rfl, rfl⟩
  | fault f => cases h
  | refused r => cases h

/-- All that a transaction can do to a block after its first reset (R89, R91, R92, R96). -/
theorem transact_up_next_cases {s : State} {tr : Transaction} {b : Block} (h : transact (.up s) tr = .next b) :
    ∃ t, b = .up t ∧
      ((∃ image, tr = .reset image ∧ hostReset image s = .next t) ∨
        (tr = .step ∧ Sys2Proof.Machine.step s = .next t) ∨
        ∃ token v, tr = .provideInput token v ∧ Sys2Proof.Machine.provideInput token v s = .next t) := by
  cases tr with
  | reset image =>
    obtain ⟨t, e, rfl⟩ := upOutcome_next_cases h
    exact ⟨t, rfl, .inl ⟨image, rfl, e⟩⟩
  | step =>
    obtain ⟨t, e, rfl⟩ := upOutcome_next_cases h
    exact ⟨t, rfl, .inr (.inl ⟨rfl, e⟩)⟩
  | provideInput token v =>
    obtain ⟨t, e, rfl⟩ := upOutcome_next_cases h
    exact ⟨t, rfl, .inr (.inr ⟨token, v, rfl, e⟩)⟩

/-- The next step of `withFetchWord` fetches the placed Word (log 7). -/
theorem withFetchWord_fetch {s : State} (h : s.mem.wf) (nbits w : Nat) :
    fetch (s.withFetchWord nbits w).mem (s.withFetchWord nbits w).finger = .ok (tableWord nbits w) := by
  have hcells := (Bank.wellFormed_iff.mp (Memory.bank_wellFormed h 0)).2
  have hlen : s.finger.toNat < max (s.mem.bank 0).len (s.finger.toNat + 1) := by omega
  show (if s.finger.toNat < max (s.mem.bank 0).len (s.finger.toNat + 1) then
    Except.ok (cellsRead (cellsWrite (s.mem.bank 0).cells s.finger.toNat (tableWord nbits w)) s.finger.toNat)
    else .error Fault.fetchOutOfRange) = _
  rw [if_pos hlen, cellsRead_cellsWrite_same hcells]

end Sys2Proof.Machine
end

