-- ==== Sys2Proof/Laws/PerInstr.lean ====
section
/-! SUPPORT. Laws/PerInstr.lean: the family EncodedOpcode: bits 31..28 of an instruction's Word are its opcode (R51, R54). -/

namespace Sys2Proof.Laws

/-- The encoder writes the opcode where the decoder reads it. -/
def EncodedOpcode.Statement (i : Instr) : Prop := opcodeOf (encode i) = i.opcode

theorem opcodeOf_encStd (op : Opcode) (a b c : RegIdx) : opcodeOf (encStd op a b c) = op := by
  apply BitVec.eq_of_getLsbD_eq
  intro i hi
  simp only [opcodeOf, encStd, BitVec.getLsbD_extractLsb', BitVec.getLsbD_or, BitVec.getLsbD_shiftLeft,
    BitVec.getLsbD_setWidth]
  have ha : a.getLsbD (28 + i - 6) = false := BitVec.getLsbD_of_ge _ _ (by omega)
  have hb : b.getLsbD (28 + i - 3) = false := BitVec.getLsbD_of_ge _ _ (by omega)
  have hc : c.getLsbD (28 + i) = false := BitVec.getLsbD_of_ge _ _ (by omega)
  have hop : 28 + i - 28 = i := by omega
  simp only [ha, hb, hc, hop]
  interval_cases i <;> simp

theorem opcodeOf_encOrtho (a : RegIdx) (v : Imm) : opcodeOf (encOrtho a v) = 13 := by
  apply BitVec.eq_of_getLsbD_eq
  intro i hi
  simp only [opcodeOf, encOrtho, BitVec.getLsbD_extractLsb', BitVec.getLsbD_or, BitVec.getLsbD_shiftLeft,
    BitVec.getLsbD_setWidth]
  have ha : a.getLsbD (28 + i - 25) = false := BitVec.getLsbD_of_ge _ _ (by omega)
  have hv : v.getLsbD (28 + i) = false := BitVec.getLsbD_of_ge _ _ (by omega)
  have hop : 28 + i - 28 = i := by omega
  simp only [ha, hv, hop]
  interval_cases i <;> rfl

theorem EncodedOpcode.cmov (a b c : RegIdx) : EncodedOpcode.Statement (.cmov a b c) := opcodeOf_encStd _ _ _ _
theorem EncodedOpcode.aidx (a b c : RegIdx) : EncodedOpcode.Statement (.aidx a b c) := opcodeOf_encStd _ _ _ _
theorem EncodedOpcode.aamd (a b c : RegIdx) : EncodedOpcode.Statement (.aamd a b c) := opcodeOf_encStd _ _ _ _
theorem EncodedOpcode.add (a b c : RegIdx) : EncodedOpcode.Statement (.add a b c) := opcodeOf_encStd _ _ _ _
theorem EncodedOpcode.mul (a b c : RegIdx) : EncodedOpcode.Statement (.mul a b c) := opcodeOf_encStd _ _ _ _
theorem EncodedOpcode.div (a b c : RegIdx) : EncodedOpcode.Statement (.div a b c) := opcodeOf_encStd _ _ _ _
theorem EncodedOpcode.nand (a b c : RegIdx) : EncodedOpcode.Statement (.nand a b c) := opcodeOf_encStd _ _ _ _
theorem EncodedOpcode.halt : EncodedOpcode.Statement .halt := opcodeOf_encStd _ _ _ _
theorem EncodedOpcode.alloc (b c : RegIdx) : EncodedOpcode.Statement (.alloc b c) := opcodeOf_encStd _ _ _ _
theorem EncodedOpcode.aband (c : RegIdx) : EncodedOpcode.Statement (.aband c) := opcodeOf_encStd _ _ _ _
theorem EncodedOpcode.out (c : RegIdx) : EncodedOpcode.Statement (.out c) := opcodeOf_encStd _ _ _ _
theorem EncodedOpcode.inp (c : RegIdx) : EncodedOpcode.Statement (.inp c) := opcodeOf_encStd _ _ _ _
theorem EncodedOpcode.loadp (b c : RegIdx) : EncodedOpcode.Statement (.loadp b c) := opcodeOf_encStd _ _ _ _
theorem EncodedOpcode.ortho (a : RegIdx) (imm : Imm) : EncodedOpcode.Statement (.ortho a imm) := opcodeOf_encOrtho _ _

end Sys2Proof.Laws
end

