-- ==== Sys2Proof/Tests/Slice0.lean ====
section
/-! SUPPORT. Tests/Slice0.lean: the decoder on Words written out bit by bit, the checks of WellFormed.lean on ill-formed
terms, one or two steps per instruction with results from spec/95_test_vectors.md, and for every statement with hypotheses
a witness that meets them. -/

open Sys2Proof Sys2Proof.Machine Sys2Proof.Claims

namespace Sys2Proof.Tests

/-! ## Builders -/

/-- The state after reset with an image, some registers set, more banks and a free list. -/
def build (image : List Word) (regs : List (RegIdx × Word)) (banks : List Bank := []) (free : List Word := []) : State :=
  let s := { resetState Config.unbounded image with mem := { banks := Bank.ofWords image :: banks, free := free } }
  regs.foldl (fun t r => t.setReg r.1 r.2) s

/-- The state an outcome holds, if it is a next state. -/
def after (o : Host.Outcome State Fault Refusal) : State :=
  match o with
  | .next t => t
  | .fault _ => State.reset
  | .refused _ => State.reset

/-- The outcome is a next state in which `p` holds. -/
def nextWith (o : Host.Outcome State Fault Refusal) (p : State → Bool) : Bool :=
  match o with
  | .next t => p t
  | .fault _ => false
  | .refused _ => false

/-- The outcome is this refusal. -/
def refusedWith (o : Host.Outcome State Fault Refusal) (r : Refusal) : Bool :=
  match o with
  | .next _ => false
  | .fault _ => false
  | .refused r' => decide (r' = r)

/-! ## Decoder: each constructor's Word from its row of the opcode table, ignored bits mixed -/

theorem test_decode_cmov : decode 0b00001010101010101010101001010011 = .ok (.cmov 1 2 3) := by decide
theorem test_decode_aidx : decode 0b00010000000000000000000101010011 = .ok (.aidx 5 2 3) := by decide
theorem test_decode_aamd : decode 0b00101111111111111111111010011100 = .ok (.aamd 2 3 4) := by decide
theorem test_decode_add : decode 0b00110000000000000000000111001000 = .ok (.add 7 1 0) := by decide
theorem test_decode_mul : decode 0b01000000000000000000000001010011 = .ok (.mul 1 2 3) := by decide
theorem test_decode_div : decode 0b01010000000000000000000011010011 = .ok (.div 3 2 3) := by decide
theorem test_decode_nand : decode 0b01101111111111111111111111111110 = .ok (.nand 7 7 6) := by decide
theorem test_decode_halt : decode 0b01111111111111111111111111111111 = .ok .halt := by decide
theorem test_decode_alloc : decode 0b10000000000000000000000111010001 = .ok (.alloc 2 1) := by decide
theorem test_decode_aband : decode 0b10010000000000000000000111111010 = .ok (.aband 2) := by decide
theorem test_decode_out : decode 0b10101000000000000000000000000011 = .ok (.out 3) := by decide
theorem test_decode_inp : decode 0b10110000000000000000000000000001 = .ok (.inp 1) := by decide
theorem test_decode_loadp : decode 0b11000100000000000000000111010000 = .ok (.loadp 2 0) := by decide
theorem test_decode_ortho : decode 0b11010111111111111111111111111111 = .ok (.ortho 3 0x1FFFFFF) := by decide
theorem test_decode_ortho_low : decode 0b11011010000000000000000000001011 = .ok (.ortho 5 11) := by decide
theorem test_decode_14 : decode 0b11101111111111111111111111111111 = .error (.invalid 14) := by decide
theorem test_decode_15 : decode 0b11110000000000000000000000000000 = .error (.invalid 15) := by decide

/-- R59's example words (95_test_vectors.md S2, 40_alu.md, 41_memory_bank.md). -/
theorem test_encode_examples :
    encode (.ortho 7 0x1FFFFFF) = 0xDFFFFFFF ∧ encode (.add 1 2 3) = 0x30000053 ∧ encode (.aamd 2 3 4) = 0x2000009C ∧
      encode (.loadp 2 0) = 0xC0000010 ∧ encode (.aband 2) = 0x90000002 ∧ encode .halt = 0x70000000 := by decide

/-! ## WellFormed: each check refuses an ill-formed term -/

theorem test_fields_opcode_14_refused : ({ op := 14, a := 0, b := 0, c := 0, imm := 0 } : Fields).wellFormed = false := by
  decide
theorem test_fields_opcode_15_refused : ({ op := 15, a := 7, b := 7, c := 7, imm := 1 } : Fields).wellFormed = false := by
  decide
theorem test_config_one_bank_refused : ({ maxStorageWords := none, maxBanks := 1 } : Config).wellFormed = false := by decide
theorem test_config_too_many_banks_refused :
    ({ maxStorageWords := some 9, maxBanks := 4294967297 } : Config).wellFormed = false := by decide
theorem test_image_too_long_refused : imageWellFormed (List.replicate 4294967296 0) = false := by
  rw [imageWellFormed, List.length_replicate]
  decide
theorem test_bank_listing_zero_refused : ({ len := 4, cells := [(1, 0)] } : Bank).wellFormed = false := by decide
theorem test_bank_falling_offsets_refused : ({ len := 4, cells := [(2, 5), (1, 5)] } : Bank).wellFormed = false := by decide
theorem test_bank_offset_past_end_refused : ({ len := 4, cells := [(4, 5)] } : Bank).wellFormed = false := by decide

/-! ## Every row of the opcode table runs as the first instruction after reset -/

theorem test_first_instruction_after_reset :
    ([0x00000000, 0x10000000, 0x20000000, 0x30000000, 0x40000000, 0x50000000, 0x60000000, 0x70000000, 0x80000000,
      0x90000000, 0xA0000000, 0xB0000000, 0xC0000000, 0xD0000000].all fun w =>
        (decodeTableWord 32 w).isSome && nextWith (step (State.reset.withFetchWord 32 w)) fun t =>
          decide (t.finger = 1) || decide (w = 0xC0000000 ∧ t.finger = 0)) = true := by decide

/-! ## Steps (95_test_vectors.md section 2; the state is the reset state with the listed registers and banks) -/

theorem test_cmov_moves : nextWith (step (build [0x000000D3] [(2, 5), (3, 0x80000000)]))
    (fun t => decide (t.reg 3 = 5 ∧ t.finger = 1 ∧ t.result = some .continues)) = true := by decide
theorem test_cmov_zero_keeps : nextWith (step (build [0x00000053] [(1, 9), (2, 5)]))
    (fun t => decide (t.reg 1 = 9)) = true := by decide
theorem test_add_wraps : nextWith (step (build [0x30000053] [(2, 0xFFFFFFFF), (3, 1)]))
    (fun t => decide (t.reg 1 = 0)) = true := by decide
theorem test_add_destination_is_source : nextWith (step (build [0x30000049] [(1, 0x7FFFFFFF)]))
    (fun t => decide (t.reg 1 = 0xFFFFFFFE)) = true := by decide
theorem test_mul_low_half : nextWith (step (build [0x40000053] [(2, 0x12345678), (3, 0x9ABCDEF0)]))
    (fun t => decide (t.reg 1 = 0x242D2080)) = true := by decide
theorem test_div_is_unsigned : nextWith (step (build [0x50000053] [(2, 0xFFFFFFFF), (3, 2)]))
    (fun t => decide (t.reg 1 = 0x7FFFFFFF)) = true := by decide
theorem test_div_by_zero_faults : nextWith (step (build [0x5ABCD053] [(1, 0x1234)]))
    (fun t => decide (t.reg 1 = 0x1234 ∧ t.finger = 1 ∧
      t.run = .faulted .divideByZero 0 (some 0x5ABCD053))) = true := by decide
theorem test_nand_bits : nextWith (step (build [0x60000053] [(2, 0xF0F0F0F0), (3, 0xFF00FF00)]))
    (fun t => decide (t.reg 1 = 0x0FFF0FFF)) = true := by decide
theorem test_nand_complement : nextWith (step (build [0x60000052] [(2, 0x12345678)]))
    (fun t => decide (t.reg 1 = 0xEDCBA987)) = true := by decide
theorem test_ortho_no_sign : nextWith (step (build [0xD1000000] [(0, 0xFFFFFFFF)]))
    (fun t => decide (t.reg 0 = 0x01000000)) = true := by decide
theorem test_aidx_reads_program : nextWith (step (build [0x10000143, 0xCAFE] [(3, 1)]))
    (fun t => decide (t.reg 5 = 0xCAFE)) = true := by decide
theorem test_aidx_bank_check_first : nextWith (step (build [0x10000153] [(2, 1), (3, 0xFFFFFFFF), (5, 7)]))
    (fun t => decide (t.run = .faulted .bankNotLive 0 (some 0x10000153) ∧ t.reg 5 = 7)) = true := by decide
theorem test_aamd_writes : nextWith (step (build [0x2000009C] [(2, 1), (3, 2), (4, 0x1234)] [Bank.zeros 5]))
    (fun t => decide (t.mem.bank 1 = Bank.ofWords [0, 0, 0x1234, 0, 0])) = true := by decide
theorem test_aamd_past_the_end_faults : nextWith (step (build [0x2000009C] [(2, 1), (3, 5)] [Bank.zeros 5]))
    (fun t => decide (t.run = .faulted .offsetOutOfRange 0 (some 0x2000009C) ∧ t.mem.bank 1 = Bank.zeros 5)) = true := by
  decide
theorem test_alloc_reuses_last_freed :
    nextWith (step (build [0x80000011] [] [Bank.empty, Bank.empty] [1, 2]))
      (fun t => decide (t.reg 2 = 1 ∧ t.mem.free = [2] ∧ t.mem.live 1 = true ∧ t.mem.size = 3)) = true := by decide
theorem test_alloc_appends : nextWith (step (build [0x80000009] [(1, 4)]))
    (fun t => decide (t.reg 1 = 1 ∧ t.mem.bank 1 = Bank.zeros 4 ∧ t.mem.size = 2)) = true := by decide
theorem test_aband_frees : nextWith (step (build [0x90000002] [(2, 1)] [Bank.zeros 5]))
    (fun t => decide (t.mem.free = [1] ∧ t.mem.bank 1 = Bank.empty ∧ t.mem.live 1 = false)) = true := by decide
theorem test_aband_never_allocated_faults : nextWith (step (build [0x90000002] [(2, 7)]))
    (fun t => decide (t.run = .faulted .abandonNotLive 0 (some 0x90000002))) = true := by decide
theorem test_loadp_copies :
    nextWith (step (build [0xC0000012] [(2, 1)] [Bank.ofWords [0x70000000, 0x70000000]]))
      (fun t => decide (t.mem.bank 0 = Bank.ofWords [0x70000000, 0x70000000] ∧ t.finger = 1 ∧
        t.mem.live 1 = true)) = true := by decide
theorem test_loadp_jumps_past_the_end : nextWith (step (build [0xC0000007] [(7, 0xFFFFFFFF)]))
    (fun t => decide (t.finger = 0xFFFFFFFF ∧ t.run = .running)) = true := by decide
theorem test_halt_ignores_fields : nextWith (step (build [0x7FFFFFFF] []))
    (fun t => decide (t.run = .halted ∧ t.finger = 1 ∧ t.result = some .halted)) = true := by decide
theorem test_out_low_byte : nextWith (step (build [0xA0000003] [(3, 0x141)]))
    (fun t => decide (t.result = some (.output 0x41) ∧ t.outputs = [0x41] ∧ t.reg 3 = 0x141)) = true := by decide
theorem test_in_waits : nextWith (step (build [0xB0000001] [(1, 0x99)]))
    (fun t => decide (t.run = .awaitingInput { reg := 1, serial := 0 } ∧ t.issued = 1 ∧ t.reg 1 = 0x99 ∧ t.finger = 1)) = true := by decide

/-! ## Host transactions and bounds -/

/-- The token of an Input on register 1. -/
def token1 (serial : Nat) : Token := { reg := 1, serial := serial }

/-- A state that waits for register 1's input: the block's fourth token, tokens 0 to 2 being consumed. -/
def waiting : State :=
  { build [0xB0000001] [(1, 0x99)] with
    run := .awaitingInput (token1 3), result := some (.inputNeeded (token1 3)), issued := 4 }

theorem test_provide_byte : nextWith (provideInput (token1 3) (some 0xFF) waiting)
    (fun t => decide (t.reg 1 = 0xFF ∧ t.run = .running)) = true := by decide
theorem test_provide_end_of_input : nextWith (provideInput (token1 3) none waiting)
    (fun t => decide (t.reg 1 = 0xFFFFFFFF)) = true := by decide
theorem test_provide_other_register_refused :
    refusedWith (provideInput { reg := 2, serial := 3 } none waiting) .notThePendingToken = true := by decide
/-- R92: a consumed token is not accepted again, though an Input on its register waits. -/
theorem test_provide_consumed_token_refused :
    refusedWith (provideInput (token1 2) none waiting) .notThePendingToken = true := by decide
theorem test_step_while_waiting_refused : refusedWith (step waiting) .stepWhileAwaitingInput = true := by decide

/-- A block that holds at most 3 Words in at most 2 banks. -/
def tiny (image : List Word) (regs : List (RegIdx × Word)) (banks : List Bank := []) : State :=
  { build image regs banks with cfg := { maxStorageWords := some 3, maxBanks := 2 } }

theorem test_alloc_storage_exhausted : nextWith (step (tiny [0x80000011] [(1, 3)]))
    (fun t => decide (t.run = .faulted .storageExhausted 0 (some 0x80000011) ∧ t.mem.size = 1)) = true := by decide
theorem test_alloc_ids_exhausted : nextWith (step (tiny [0x80000011] [(1, 1)] [Bank.zeros 1]))
    (fun t => decide (t.run = .faulted .bankIdsExhausted 0 (some 0x80000011))) = true := by decide
theorem test_loadp_storage_exhausted : nextWith (step (tiny [0xC0000010] [(2, 1)] [Bank.zeros 2]))
    (fun t => decide (t.run = .faulted .storageExhausted 0 (some 0xC0000010))) = true := by decide
theorem test_image_over_storage_refused :
    refusedWith (resetWith { maxStorageWords := some 3, maxBanks := 2 } [1, 2, 3, 4]) .imageOverStorage = true := by decide
theorem test_image_bytes : imageOfBytes [0xD0, 0, 0, 0x41, 0xA0, 0, 0, 0, 0x70] = [0xD0000041, 0xA0000000] := by decide

/-! ## Witnesses: the hypotheses of each statement, met together by concrete values, each clause at its boundary -/

theorem witness_DecodeInvertsEncode :
    (12 : Opcode).toNat ≤ 12 ∧ (27 < 28 ∧ ¬UsedBit Instr.halt.opcode.toNat 27) ∧
      (3 < 28 ∧ ¬UsedBit (Instr.aband 7).opcode.toNat 3) ∧
      ∀ n, n < 32 → UsedBit (Instr.aband 7).opcode.toNat n →
        (0x9FFFFFFF : Word).getLsbD n = (encode (.aband 7)).getLsbD n := by decide
theorem witness_EncodeOfDecodeClearsIgnoredBits : decode 0x3FFFFFC8 = .ok (.add 7 1 0) := by decide
theorem witness_DecodingReadsOnlyTheUsedBits :
    (∀ n, n < 32 → UsedBit (opValue 0xCFFFFFD0) n → (0xCFFFFFD0 : Word).getLsbD n = (0xC0000010 : Word).getLsbD n) ∧
      opValue 0xCFFFFFD0 ≤ 13 ∧ opValue 0xDFFFFFFF ≤ 13 := by decide
theorem witness_DecoderFollowsThePseudocode :
    14 ≤ opValue 0xE0000000 ∧ opValue 0xDFFFFFFF = 13 ∧ opValue 0xCFFFFFFF ≤ 12 ∧ opValue 0xDFFFFFFF ≤ 13 := by decide
theorem witness_IllegalOpcodeFaultsAtDecode :
    14 ≤ opValue 0xE0000000 ∧ (build [0xE0000000] []).run = .running ∧
      fetch (build [0xE0000000] []).mem (build [0xE0000000] []).finger = .ok 0xE0000000 := by decide
theorem witness_StepRunsTheDecodedInstruction :
    (build [0xD0000041] []).run = .running ∧ fetch (build [0xD0000041] []).mem 0 = .ok 0xD0000041 ∧
      decode 0xD0000041 = .ok (.ortho 0 65) := by decide
theorem witness_FetchFaultsExactlyPastBankZero :
    (0 : Word).toNat < ((build [7] []).mem.bank 0).len ∧ State.reset.run = .running ∧
      (State.reset.mem.bank 0).len ≤ State.reset.finger.toNat := by decide
theorem witness_StepEnabledExactlyWhenRunning :
    State.reset.run = .running ∧ waiting.run = .awaitingInput (token1 3) ∧
      ({ State.reset with run := .halted } : State).run = .halted ∧
      ({ State.reset with run := .faulted .divideByZero 0 none } : State).run = .faulted .divideByZero 0 none := by decide
/-- A fault of the arm, of the decoder and of the fetch. -/
theorem witness_FaultsArePrecise :
    (step (build [0x50000088] []) = .next (after (step (build [0x50000088] []))) ∧
      (after (step (build [0x50000088] []))).run = .faulted .divideByZero 0 (some 0x50000088)) ∧
    (step (build [0xE0000000] []) = .next (after (step (build [0xE0000000] []))) ∧
      (after (step (build [0xE0000000] []))).run = .faulted .invalidOpcode 0 (some 0xE0000000)) ∧
    (step State.reset = .next (after (step State.reset)) ∧
      (after (step State.reset)).run = .faulted .fetchOutOfRange 0 none) :=
  ⟨⟨rfl, by decide⟩, ⟨rfl, by decide⟩, rfl, by decide⟩
theorem witness_FaultsComeOnlyFromTheListedCauses :
    step (build [0x90000000] []) = .next (after (step (build [0x90000000] []))) ∧
      (after (step (build [0x90000000] []))).run = .faulted .abandonBank0 0 (some 0x90000000) :=
  ⟨rfl, by decide⟩
theorem witness_OnlyLoadProgramMovesTheFinger :
    step (build [0xC0000007] [(7, 11)]) = .next (after (step (build [0xC0000007] [(7, 11)]))) ∧
      fetch (build [0xC0000007] [(7, 11)]).mem (build [0xC0000007] [(7, 11)]).finger = .ok 0xC0000007 ∧
      decode 0xC0000007 = .ok (.loadp 0 7) :=
  ⟨rfl, by decide, by decide⟩
theorem witness_FingerNeverWraps :
    (build [0x70000000] []).Inv ∧
      fetch (build [0x70000000] []).mem (build [0x70000000] []).finger = .ok 0x70000000 := by decide
theorem witness_StepWritesAtMostOneRegister :
    step (build [0x80000011] [(1, 5)]) = .next (after (step (build [0x80000011] [(1, 5)]))) := rfl
theorem witness_OutputBytesLeaveInStepOrder :
    Host.Core.run Sys2Proof.core 1 (build [0xA0000003] [(3, 0x141)]) =
      .next (after (step (build [0xA0000003] [(3, 0x141)]))) := rfl
theorem witness_SelfJumpNeverEnds :
    (build [0xC0000000] []).run = .running ∧
      fetch (build [0xC0000000] []).mem (build [0xC0000000] []).finger = .ok 0xC0000000 ∧
      decode 0xC0000000 = .ok (.loadp 0 0) ∧ (build [0xC0000000] []).reg 0 = 0 ∧
      (build [0xC0000000] []).reg 0 = (build [0xC0000000] []).finger := by decide
theorem witness_CmovMovesExactlyWhenConditionNonzero :
    opValue 0x0FFFFFFF = 0 ∧ (build [] [(3, 1)]).reg 3 ≠ 0 ∧ (build [] []).reg 3 = 0 := by decide
theorem witness_AddWritesTheSumModulo : opValue 0x3FFFFFC8 = 3 := by decide
theorem witness_MulWritesTheProductModulo : opValue 0x4FFFFFFF = 4 := by decide
theorem witness_DivWritesTheQuotientOrFaults :
    opValue 0x50000053 = 5 ∧ (build [] [(3, 1)]).reg 3 ≠ 0 ∧ (build [] []).reg 3 = 0 := by decide
theorem witness_NandWritesTheBitwiseNotAnd : opValue 0x6FFFFFFF = 6 := by decide
theorem witness_OrthoLoadsTheZeroExtendedImmediate : opValue 0xDFFFFFFF = 13 := by decide

/-- Bank 1 has two Words; the registers hold the bank id 1, its last offset, the offset past it, and an id not live. -/
def banked : State := build [0, 0] [(1, 1), (2, 2), (3, 3), (4, 0x1234)] [Bank.ofWords [8, 9]]

theorem witness_ArrayIndexReadsOrFaults :
    opValue 0x10000153 = 1 ∧
      (banked.mem.live (banked.reg 1) = true ∧ (banked.reg 1).toNat < (banked.mem.bank (banked.reg 1)).len) ∧
      banked.mem.live (banked.reg 2) = false ∧
      (banked.mem.live (banked.reg 1) = true ∧ (banked.mem.bank (banked.reg 1)).len ≤ (banked.reg 2).toNat) := by decide
theorem witness_ArrayAmendmentWritesOneWordOrFaults :
    opValue 0x2000009C = 2 ∧
      (banked.mem.wf ∧ banked.mem.live (banked.reg 1) = true ∧
        (banked.reg 1).toNat < (banked.mem.bank (banked.reg 1)).len) ∧
      banked.mem.live (banked.reg 2) = false ∧
      (banked.mem.live (banked.reg 1) = true ∧ (banked.mem.bank (banked.reg 1)).len ≤ (banked.reg 2).toNat) := by decide
/-- The free list in use; the table's end in use with storage at its exact bound; each of the two bounds passed. -/
theorem witness_AllocationMakesAZeroFilledBankOrFaults :
    opValue 0x80000011 = 8 ∧
      ((build [] [] [Bank.empty] [1]).Inv ∧ overStorage (build [] [] [Bank.empty] [1]).cfg
          ((build [] [] [Bank.empty] [1]).mem.storageInUse + ((build [] [] [Bank.empty] [1]).reg 1).toNat) = false ∧
        (build [] [] [Bank.empty] [1]).mem.free = [1]) ∧
      ((tiny [7] [(1, 2)]).Inv ∧
        overStorage (tiny [7] [(1, 2)]).cfg
          ((tiny [7] [(1, 2)]).mem.storageInUse + ((tiny [7] [(1, 2)]).reg 1).toNat) = false ∧
        (tiny [7] [(1, 2)]).mem.free = [] ∧ (tiny [7] [(1, 2)]).mem.size ≠ (tiny [7] [(1, 2)]).cfg.maxBanks) ∧
      overStorage (tiny [7] [(1, 3)]).cfg
        ((tiny [7] [(1, 3)]).mem.storageInUse + ((tiny [7] [(1, 3)]).reg 1).toNat) = true ∧
      (overStorage (tiny [7] [] [Bank.zeros 1]).cfg
          ((tiny [7] [] [Bank.zeros 1]).mem.storageInUse + ((tiny [7] [] [Bank.zeros 1]).reg 1).toNat) = false ∧
        (tiny [7] [] [Bank.zeros 1]).mem.free = [] ∧
        (tiny [7] [] [Bank.zeros 1]).mem.size = (tiny [7] [] [Bank.zeros 1]).cfg.maxBanks) := by decide
theorem witness_UnboundedBlockNeverExhaustsStorage :
    (build [0x50000088] []).Inv ∧ (build [0x50000088] []).cfg = Config.unbounded ∧
      step (build [0x50000088] []) = .next (after (step (build [0x50000088] []))) ∧
      (after (step (build [0x50000088] []))).run = .faulted .divideByZero 0 (some 0x50000088) :=
  ⟨by decide, by decide, rfl, by decide⟩
theorem witness_AbandonmentFreesOrFaults :
    opValue 0x90000002 = 9 ∧ (banked.reg 1 ≠ 0 ∧ banked.mem.live (banked.reg 1) = true) ∧ banked.reg 0 = 0 ∧
      (banked.reg 2 ≠ 0 ∧ banked.mem.live (banked.reg 2) = false) := by decide
theorem witness_LoadProgramJumpsCopiesOrFaults :
    opValue 0xC0000010 = 12 ∧ banked.reg 0 = 0 ∧
      (banked.mem.wf ∧ banked.reg 1 ≠ 0 ∧ banked.mem.live (banked.reg 1) = true ∧
        overStorage banked.cfg
          (banked.mem.storageInUse - (banked.mem.bank 0).len + (banked.mem.bank (banked.reg 1)).len) = false) ∧
      (banked.reg 2 ≠ 0 ∧ banked.mem.live (banked.reg 2) = false) ∧
      ((tiny [7] [(1, 1)] [Bank.zeros 2]).reg 1 ≠ 0 ∧
        (tiny [7] [(1, 1)] [Bank.zeros 2]).mem.live ((tiny [7] [(1, 1)] [Bank.zeros 2]).reg 1) = true ∧
        overStorage (tiny [7] [(1, 1)] [Bank.zeros 2]).cfg
          ((tiny [7] [(1, 1)] [Bank.zeros 2]).mem.storageInUse - ((tiny [7] [(1, 1)] [Bank.zeros 2]).mem.bank 0).len +
            ((tiny [7] [(1, 1)] [Bank.zeros 2]).mem.bank ((tiny [7] [(1, 1)] [Bank.zeros 2]).reg 1)).len) = true) := by
  decide
theorem witness_HaltIsTerminal : opValue 0x7FFFFFFF = 7 := by decide
theorem witness_OutputEmitsTheLowByte : opValue 0xA0000003 = 10 := by decide
theorem witness_InputWaitsForTheHost : opValue 0xB0000001 = 11 := by decide
theorem witness_ProvideInputWritesTheBoundRegister :
    waiting.run = .awaitingInput (token1 3) ∧ waiting.run ≠ .awaitingInput { reg := 2, serial := 3 } ∧
      waiting.run ≠ .awaitingInput (token1 2) ∧ State.reset.run ≠ .awaitingInput (token1 0) := by decide
theorem witness_ProvideInputEnabledOncePerInput :
    provideInput (token1 3) none waiting = .next (after (provideInput (token1 3) none waiting)) := rfl
/-- A reset out of `Halted`, out of `Faulted`, and an answer in `AwaitingInput`. -/
theorem witness_OnlyResetLeavesATerminalState :
    transact (.up { State.reset with run := .halted }) (.reset []) = .next (.up State.reset) ∧
      transact (.up { State.reset with run := .faulted .divideByZero 0 none }) (.reset []) = .next (.up State.reset) ∧
      transact (.up waiting) (.provideInput (token1 3) none) =
        .next (.up (after (provideInput (token1 3) none waiting))) :=
  ⟨rfl, rfl, rfl⟩
theorem witness_OnlyResetIsEnabledBeforeTheFirst : ∀ image, Transaction.step ≠ .reset image := by
  intro image h
  cases h
theorem witness_ResetSetsEveryPieceOfState :
    ([7, 8] : List Word).length ≤ 4294967295 ∧ overStorage waiting.cfg ([7, 8] : List Word).length = false := by decide
theorem witness_TooLongAnImageIsRefused : 4294967295 < (List.replicate 4294967296 (0 : Word)).length := by
  rw [List.length_replicate]
  decide
theorem witness_ImageOverStorageIsRefused :
    ([1, 2, 3, 4] : List Word).length ≤ 4294967295 ∧
      overStorage (tiny [] []).cfg ([1, 2, 3, 4] : List Word).length = true := by decide
theorem witness_ImageIsBigEndianWords : 1 < ([1, 2, 3, 4, 5, 6, 7, 8, 9] : List Byte).length / 4 := by decide
theorem witness_ReadChecksBankThenOffset :
    (banked.mem.live 2 = false) ∧ (banked.mem.live 1 = true ∧ (banked.mem.bank 1).len ≤ (2 : Word).toNat) ∧
      (banked.mem.live 1 = true ∧ (1 : Word).toNat < (banked.mem.bank 1).len) := by decide
theorem witness_EveryIdIsLiveOrFree :
    banked.mem.wf ∧ (1 : Word).toNat < banked.mem.size ∧ banked.mem.size ≤ (2 : Word).toNat := by decide
theorem witness_ReadSeesTheLastWrite :
    banked.mem.wf ∧ memWrite banked.mem 1 1 5 = .ok (banked.mem.setBank 1 (Bank.ofWords [8, 5])) := by decide
theorem witness_FreedIdIsReusedWithFreshZeros :
    banked.mem.wf ∧
      abandon banked.mem 1 = .ok { banks := [Bank.ofWords [0, 0], Bank.empty], free := [1] } ∧
      alloc Config.unbounded { banks := [Bank.ofWords [0, 0], Bank.empty], free := [1] } 3 =
        .ok (1, { banks := [Bank.ofWords [0, 0], Bank.zeros 3], free := [] }) := by decide
theorem witness_LoadedProgramIsAnIndependentCopy :
    banked.mem.wf ∧ (1 : Word) ≠ 0 ∧
      replace0 banked.cfg banked.mem 1 = .ok { banks := [Bank.ofWords [8, 9], Bank.ofWords [8, 9]], free := [] } ∧
      memWrite { banks := [Bank.ofWords [8, 9], Bank.ofWords [8, 9]], free := [] } 1 0 5 =
        .ok { banks := [Bank.ofWords [8, 9], Bank.ofWords [5, 9]], free := [] } ∧
      memWrite { banks := [Bank.ofWords [8, 9], Bank.ofWords [8, 9]], free := [] } 0 1 5 =
        .ok { banks := [Bank.ofWords [8, 5], Bank.ofWords [8, 9]], free := [] } ∧
      abandon { banks := [Bank.ofWords [8, 9], Bank.ofWords [8, 9]], free := [] } 1 =
        .ok { banks := [Bank.ofWords [8, 9], Bank.empty], free := [1] } := by decide

/-- AAMD r0, r1, r2 at offset 0 writes HALT over the illegal Word at offset 1, as in program P7. -/
def patching : State := build [0x2000000A, 0xE0000000] [(1, 1), (2, 0x70000000)]

theorem witness_WrittenInstructionRunsNext :
    (patching.mem.wf ∧ memWrite patching.mem 0 1 0x70000000 =
      .ok (patching.mem.setBank 0 (Bank.ofWords [0x2000000A, 0x70000000]))) ∧ patching.Inv ∧ patching.run = .running ∧ fetch patching.mem patching.finger = .ok 0x2000000A ∧
      decode 0x2000000A = .ok (.aamd 0 1 2) ∧ patching.reg 0 = 0 ∧ patching.reg 1 = patching.finger + 1 ∧
      (patching.finger + 1).toNat < (patching.mem.bank 0).len ∧ decode (patching.reg 2) = .ok .halt := by decide

/-- LOADP r2, r0 loads bank 1, a HALT. -/
def loading : State := build [0xC0000010] [(2, 1)] [Bank.ofWords [0x70000000]]

theorem witness_LoadedProgramIsFetchedNext :
    loading.Inv ∧ fetch loading.mem loading.finger = .ok 0xC0000010 ∧ decode 0xC0000010 = .ok (.loadp 2 0) ∧
      loading.reg 2 ≠ 0 ∧ step loading = .next (after (step loading)) ∧ (after (step loading)).run = .running :=
  ⟨by decide, by decide, by decide, by decide, rfl, by decide⟩
theorem witness_BanksThatReadAlikeAreEqual :
    (Bank.ofWords [0, 5]).wellFormed = true ∧ ({ len := 2, cells := [(1, 5)] } : Bank).wellFormed = true ∧
      (Bank.ofWords [0, 5]).len = ({ len := 2, cells := [(1, 5)] } : Bank).len ∧
      ∀ j, j < 2 → (Bank.ofWords [0, 5]).read j = ({ len := 2, cells := [(1, 5)] } : Bank).read j := by decide
theorem witness_StepKeepsTheInvariant : banked.Inv ∧ step banked = .next (after (step banked)) := ⟨by decide, rfl⟩
/-- Before the first reset, then reset, step and step again: the transactions of a block's life. -/
theorem witness_EveryTransactionRunKeepsTheInvariant :
    (Block.beforeReset Config.unbounded).Inv ∧
      transactAll (.beforeReset Config.unbounded) [.reset [0xB0000001], .step, .provideInput (token1 0) none] =
        .next (.up (after (provideInput (token1 0) none
          (after (step (resetState Config.unbounded [0xB0000001])))))) :=
  ⟨by decide, rfl⟩

/-- An Input on register 1 executed by a block whose tokens 0 and 1 are consumed. -/
theorem witness_EveryInputCreatesAFreshToken :
    transact (.up { build [0xB0000001] [] with issued := 2 }) .step =
      .next (.up (after (step { build [0xB0000001] [] with issued := 2 }))) ∧
    (after (step { build [0xB0000001] [] with issued := 2 })).run = .awaitingInput (token1 2) :=
  ⟨rfl, by decide⟩
/-- A second Input on register 1 waits after token 0 was consumed, and after a reset that found it pending. -/
theorem witness_ConsumedTokenIsNeverAcceptedAgain :
    waiting.Inv ∧ provideInput (token1 3) none waiting = .next (after (provideInput (token1 3) none waiting)) ∧
      waiting.run = .awaitingInput (token1 3) ∧
      hostReset [0xB0000001] waiting = .next (after (hostReset [0xB0000001] waiting)) ∧
      transactAll (.up (after (hostReset [0xB0000001] waiting))) [.step] =
        .next (.up (after (step (after (hostReset [0xB0000001] waiting))))) ∧
      (after (step (after (hostReset [0xB0000001] waiting)))).run = .awaitingInput (token1 4) :=
  ⟨by decide, rfl, by decide, rfl, rfl, by decide⟩

end Sys2Proof.Tests
end

section
/-! Proofs: reset. What the state after a reset holds, field by field (R27 to R30), and O37. -/

namespace Sys2Proof.Machine

/-! ## The state after a reset -/

section resetState
variable (cfg : Config) (image : List Word) (issued : Nat)

@[simp] theorem resetState_cfg : (resetState cfg image issued).cfg = cfg := rfl
@[simp] theorem resetState_finger : (resetState cfg image issued).finger = 0 := rfl
@[simp] theorem resetState_run : (resetState cfg image issued).run = .running := rfl
@[simp] theorem resetState_banks_length : (resetState cfg image issued).mem.banks.length = 1 := rfl
@[simp] theorem resetState_mem_free : (resetState cfg image issued).mem.free = [] := rfl
@[simp] theorem resetState_bank_zero : (resetState cfg image issued).mem.bank 0 = Bank.ofWords image := rfl

/-- Every register is 0 (R27). -/
@[simp] theorem resetState_reg (r : RegIdx) : (resetState cfg image issued).reg r = 0 :=
  Vector.getElem_replicate r.isLt

/-- Slot 0 is the one slot and the free list is empty, so bank 0 alone is live (R29, R22). -/
theorem resetState_live_iff (k : Word) : (resetState cfg image issued).mem.live k = true ↔ k = 0 := by
  have hslot : k.toNat < 1 ↔ k = 0 := by bv_omega
  rw [Memory.live_iff, resetState_mem_free, resetState_banks_length, hslot]
  exact and_iff_left List.not_mem_nil

/-- Bank 0 reads the image's Words in order and faults past them (R29, R33). -/
theorem resetState_memRead_zero (j : Word) :
    memRead (resetState cfg image issued).mem 0 j =
      if h : j.toNat < image.length then .ok image[j.toNat] else .error .offsetOutOfRange := by
  have hlive : (resetState cfg image issued).mem.live 0 = true := (resetState_live_iff cfg image issued 0).mpr rfl
  rw [memRead, if_pos hlive, resetState_bank_zero, Bank.ofWords_len, Bank.ofWords_read]
  split_ifs with hj
  · rw [List.getD_eq_getElem image 0 hj]
  · rfl

end resetState

/-- A legal image that the storage holds is accepted from every state (R96, R97). -/
theorem hostReset_eq_next {image : List Word} {s : State} (hlen : image.length ≤ 4294967295)
    (hfits : overStorage s.cfg image.length = false) :
    hostReset image s = .next (resetState s.cfg image s.issued) := by
  rcases resetWith_cases s.cfg image s.issued with ⟨-, -, hnext⟩ | ⟨-, hover, -⟩ | ⟨hlong, -⟩
  · exact hnext
  · simp [hfits] at hover
  · omega

end Sys2Proof.Machine

namespace Sys2Proof.Claims

open Sys2Proof.Machine

/-- Settles O37: the reset answers `resetState`, whose every field is read off by its lemma. -/
theorem resetSetsEveryPieceOfState : Obligations.ResetSetsEveryPieceOfState := by
  intro s image hlen hfits
  exact ⟨resetState s.cfg image s.issued, hostReset_eq_next hlen hfits, resetState_reg _ _ _, resetState_finger _ _ _,
    resetState_banks_length _ _ _, resetState_live_iff _ _ _, resetState_mem_free _ _ _,
    by rw [resetState_bank_zero, Bank.ofWords_len], resetState_memRead_zero _ _ _, resetState_run _ _ _,
    resetState_cfg _ _ _⟩

end Sys2Proof.Claims
end

section
/-! Proofs: reads and fetches. The answers of MemRead (R33), Fetch (R38) and a step at the finger, and O8 and O42. -/

namespace Sys2Proof.Machine

/-! ## MemRead -/

/-- A live bank's Word below its length is the answer (R33). -/
theorem memRead_ok {m : Memory} {k j : Word} (hk : m.live k = true) (hj : j.toNat < (m.bank k).len) :
    memRead m k j = .ok ((m.bank k).read j.toNat) := by
  rw [memRead, if_pos hk, if_pos hj]

/-- The bank check reports exactly the ids that are not live, whatever the offset (R33, R83). -/
theorem memRead_bankNotLive_iff (m : Memory) (k j : Word) :
    memRead m k j = .error .bankNotLive ↔ m.live k = false := by
  rcases memRead_cases m k j with ⟨hk, -, hread⟩ | ⟨hk, -, hread⟩ | ⟨hk, hread⟩ <;> simp [hk, hread]

/-- The offset check reports exactly the offsets past the end of a live bank (R33, R83). -/
theorem memRead_offsetOutOfRange_iff (m : Memory) (k j : Word) :
    memRead m k j = .error .offsetOutOfRange ↔ m.live k = true ∧ (m.bank k).len ≤ j.toNat := by
  rcases memRead_cases m k j with ⟨hk, hj, hread⟩ | ⟨hk, hj, hread⟩ | ⟨hk, hread⟩
  · simp [hread, hj]
  · simp [hread, hk, hj]
  · simp [hread, hk]

/-! ## Fetch -/

theorem fetch_ok {m : Memory} {f : Word} (hf : f.toNat < (m.bank 0).len) :
    fetch m f = .ok ((m.bank 0).read f.toNat) := by
  rw [fetch, if_pos hf]

theorem fetch_outOfRange {m : Memory} {f : Word} (hf : (m.bank 0).len ≤ f.toNat) :
    fetch m f = .error .fetchOutOfRange := by
  rw [fetch, if_neg (not_lt.mpr hf)]

/-! ## A step whose fetch faults -/

theorem step_of_running {s : State} (hrun : s.run = .running) : step s = stepRunning s := by
  rw [step, hrun]

/-- A step whose fetch faults raises that fault with no Word, and nothing is decoded (R61, R83). -/
theorem step_of_fetch_error {s : State} {f : Fault} (hrun : s.run = .running)
    (hfetch : fetch s.mem s.finger = .error f) : step s = .next (s.raise f s.finger none) := by
  rw [step_of_running hrun, stepRunning, hfetch]

/-- A raised fault changes no register, no bank, no free id and not the finger (R81). -/
theorem State.raise_onlyRunAndResult (s : State) (f : Fault) (pos : Word) (word : Option Word) :
    Claims.OnlyRunAndResult s (s.raise f pos word) :=
  ⟨s.raise_cfg f pos word, s.raise_reg f pos word, s.raise_finger f pos word, s.raise_mem f pos word,
    s.raise_outputs f pos word, s.raise_issued f pos word⟩

end Sys2Proof.Machine

namespace Sys2Proof.Claims

open Sys2Proof.Machine

/-- Settles O8: below the length by the fetch itself, at or past it by the step that raises the fetch's fault. -/
theorem fetchFaultsExactlyPastBankZero : Obligations.FetchFaultsExactlyPastBankZero := by
  refine ⟨fun _ _ => fetch_ok, fun s hrun hpast => ?_⟩
  have hstep : step s = .next (s.raise .fetchOutOfRange s.finger none) :=
    step_of_fetch_error hrun (fetch_outOfRange hpast)
  exact ⟨_, hstep, s.raise_run _ _ _, s.raise_result _ _ _, s.raise_onlyRunAndResult _ _ _⟩

/-- Settles O42: the two checks in their order, and the Word where both pass. -/
theorem readChecksBankThenOffset : Obligations.ReadChecksBankThenOffset := fun m k j =>
  ⟨memRead_bankNotLive_iff m k j, memRead_offsetOutOfRange_iff m k j, memRead_ok⟩

end Sys2Proof.Claims
end

section
/-! Proofs: the decoder. The fields as arithmetic on the Word's value (R51 to R53), what `instrOf`, `decode` and a step
at a fetched Word can answer (R54 to R58, R61), and O4 and O5. -/

namespace Sys2Proof

open Sys2Proof.Claims

/-! ## The bit fields as quotients of the Word's value -/

section fields
variable (w : Word)

/-- Bits 31..28 need no further reduction: a Word's value is below 2^32 = 16 * 2^28 (R51). -/
theorem opcodeOf_toNat : (opcodeOf w).toNat = opValue w := by
  have hdiv : w.toNat >>> 28 = opValue w := Nat.shiftRight_eq_div_pow _ 28
  have hlt : opValue w < 2 ^ 4 := by unfold opValue; omega
  rw [opcodeOf, BitVec.extractLsb'_toNat, hdiv, Nat.mod_eq_of_lt hlt]

theorem opcodeOf_eq_ofNat : opcodeOf w = BitVec.ofNat 4 (opValue w) := by
  rw [← opcodeOf_toNat, BitVec.ofNat_toNat, BitVec.setWidth_eq]

theorem stdA_eq_fieldA : stdA w = fieldA w := congrArg (BitVec.ofNat 3) (Nat.shiftRight_eq_div_pow _ 6)
theorem stdB_eq_fieldB : stdB w = fieldB w := congrArg (BitVec.ofNat 3) (Nat.shiftRight_eq_div_pow _ 3)
theorem stdC_eq_fieldC : stdC w = fieldC w := rfl
theorem orthoA_eq_orthoFieldA : orthoA w = orthoFieldA w := congrArg (BitVec.ofNat 3) (Nat.shiftRight_eq_div_pow _ 25)
theorem orthoImm_eq_immediate : orthoImm w = immediate w := rfl

/-! ## The decoded fields -/

@[simp] theorem fieldsOf_op : (fieldsOf w).op = opcodeOf w := rfl
@[simp] theorem fieldsOf_b : (fieldsOf w).b = fieldB w := stdB_eq_fieldB w
@[simp] theorem fieldsOf_c : (fieldsOf w).c = fieldC w := stdC_eq_fieldC w
@[simp] theorem fieldsOf_imm : (fieldsOf w).imm = immediate w := orthoImm_eq_immediate w

/-- Field A is the one field whose place depends on the opcode (R58). -/
theorem fieldsOf_a : (fieldsOf w).a = if opValue w = 13 then orthoFieldA w else fieldA w := by
  have hop : opcodeOf w = 13 ↔ opValue w = 13 := by rw [← opcodeOf_toNat]; exact BitVec.toNat_inj.symm
  simp only [fieldsOf, hop, orthoA_eq_orthoFieldA, stdA_eq_fieldA]

end fields

/-! ## What the opcode map and the decoder answer -/

/-- The opcode map has an instruction of each opcode up to 13 and none past it (R54, R56, R57). -/
theorem instrOf_cases (f : Fields) :
    (f.op.toNat ≤ 13 ∧ ∃ i, instrOf f = .ok i ∧ i.opcode.toNat = f.op.toNat) ∨
      (14 ≤ f.op.toNat ∧ instrOf f = .error (.invalid f.op)) := by
  unfold instrOf
  split
  case h_15 =>
    refine .inr ⟨?_, rfl⟩
    simp only [imp_false] at *
    omega
  all_goals next hop => exact .inl ⟨by omega, _, rfl, hop.symm⟩

/-- Every Word is legal or illegal by its opcode alone (R55 to R57). -/
theorem decode_cases (w : Word) :
    (opValue w ≤ 13 ∧ ∃ i, decode w = .ok i ∧ i.opcode.toNat = opValue w) ∨
      (14 ≤ opValue w ∧ decode w = .error (.invalid (opcodeOf w))) := by
  rw [← opcodeOf_toNat]
  exact instrOf_cases (fieldsOf w)

theorem decode_legal {w : Word} (h : opValue w ≤ 13) : ∃ i, decode w = .ok i ∧ i.opcode.toNat = opValue w := by
  rcases decode_cases w with ⟨-, hok⟩ | ⟨hillegal, -⟩
  · exact hok
  · omega

theorem decode_illegal {w : Word} (h : 14 ≤ opValue w) : decode w = .error (.invalid (opcodeOf w)) := by
  rcases decode_cases w with ⟨hlegal, -⟩ | ⟨-, herror⟩
  · omega
  · exact herror

end Sys2Proof

namespace Sys2Proof.Machine

/-! ## A step at a fetched Word -/

/-- A step that fetches a Word runs what it decodes to, or raises the decode fault at the finger (R61, R81). -/
theorem step_of_fetch_ok {s : State} {w : Word} (hrun : s.run = .running) (hfetch : fetch s.mem s.finger = .ok w) :
    (∃ i, decode w = .ok i ∧ step s = exec i s.advance) ∨
      ∃ e, decode w = .error e ∧ step s = .next (s.raise .invalidOpcode s.finger (some w)) := by
  rw [step_of_running hrun, stepRunning, hfetch]
  cases hdecode : decode w with
  | ok i => exact .inl ⟨i, rfl, by simp only [hdecode]⟩
  | error e => exact .inr ⟨e, rfl, by simp only [hdecode]⟩

theorem step_of_illegal_word {s : State} {w : Word} (hrun : s.run = .running) (hfetch : fetch s.mem s.finger = .ok w)
    (hillegal : 14 ≤ Claims.opValue w) : step s = .next (s.raise .invalidOpcode s.finger (some w)) := by
  rcases step_of_fetch_ok hrun hfetch with ⟨i, hok, -⟩ | ⟨-, -, hstep⟩
  · simp [decode_illegal hillegal] at hok
  · exact hstep

end Sys2Proof.Machine

namespace Sys2Proof.Claims

open Sys2Proof.Machine

/-- Settles O4: the fields are the arithmetic ones, field A by the format, and the opcode decides legality. -/
theorem decoderFollowsThePseudocode : Obligations.DecoderFollowsThePseudocode := by
  intro w
  refine ⟨opcodeOf_toNat w, decode_illegal, fun hortho => ?_, fun hstd => ?_, decode_legal⟩
  · exact ⟨by rw [fieldsOf_a, if_pos hortho], fieldsOf_imm w⟩
  · have hne : opValue w ≠ 13 := by omega
    exact ⟨by rw [fieldsOf_a, if_neg hne], fieldsOf_b w, fieldsOf_c w⟩

/-- Settles O5: an illegal Word has no instruction, so the step that fetched it raises at its finger. -/
theorem illegalOpcodeFaultsAtDecode : Obligations.IllegalOpcodeFaultsAtDecode := by
  refine ⟨fun w hillegal => ?_, fun s w hrun hfetch hillegal => ?_⟩
  · rw [← opcodeOf_eq_ofNat]
    exact decode_illegal hillegal
  · exact ⟨_, step_of_illegal_word hrun hfetch hillegal, s.raise_run _ _ _, s.raise_result _ _ _,
      s.raise_onlyRunAndResult _ _ _⟩

end Sys2Proof.Claims
end

section
/-! Proofs: the ALU and register instructions. What decodes at one opcode (R54), the frames of a register write and of a
fault raised in an arm (R8, R81), the ALU arms as register writes (R62 to R69), and O18 to O23. -/

namespace Sys2Proof

open Sys2Proof.Claims

/-! ## Decoding at a known opcode -/

/-- The decoded fields as arithmetic on the Word's value (R51 to R53, R58). -/
theorem fieldsOf_eq (w : Word) :
    fieldsOf w =
      { op := BitVec.ofNat 4 (opValue w)
        a := if opValue w = 13 then orthoFieldA w else fieldA w
        b := fieldB w
        c := fieldC w
        imm := immediate w } := by
  rw [← opcodeOf_eq_ofNat, ← fieldsOf_a, ← fieldsOf_b, ← fieldsOf_c, ← fieldsOf_imm, ← fieldsOf_op]

/-- A Word of opcode 0 to 12 is decoded in the standard format. At a numeral for `n` the right side computes to the
opcode map's row (R54). -/
theorem decode_standard {w : Word} {n : Nat} (hop : opValue w = n) (hn : n ≤ 12) :
    decode w =
      instrOf { op := BitVec.ofNat 4 n, a := fieldA w, b := fieldB w, c := fieldC w, imm := immediate w } := by
  have hne : n ≠ 13 := by omega
  rw [decode, fieldsOf_eq, hop, if_neg hne]

/-- A Word of opcode 13 is decoded in the orthography format (R53). -/
theorem decode_orthography {w : Word} (hop : opValue w = 13) :
    decode w = .ok (.ortho (orthoFieldA w) (immediate w)) := by
  rw [decode, fieldsOf_eq, hop, if_pos rfl]
  rfl

end Sys2Proof

namespace Sys2Proof.Machine

/-! ## Frames -/

theorem State.onlyRegister_refl (a : RegIdx) (s : State) : Claims.OnlyRegister a s s :=
  ⟨rfl, fun _ _ => rfl, rfl, rfl, rfl, rfl, rfl, rfl⟩

/-- A register write changes no other register and nothing besides (R8, R14). -/
theorem State.setReg_onlyRegister (s : State) (a : RegIdx) (v : Word) : Claims.OnlyRegister a s (s.setReg a v) :=
  ⟨s.setReg_cfg a v, fun r hr => s.reg_setReg_other a r v hr, s.setReg_finger a v, s.setReg_mem a v, s.setReg_run a v,
    s.setReg_result a v, s.setReg_outputs a v, s.setReg_issued a v⟩

/-- A fault raised in an arm records the step's beginning and changes nothing else (R80, R81). -/
theorem State.raiseInArm_trapped (s : State) (f : Fault) : Claims.Trapped f s (s.raiseInArm f) :=
  ⟨s.raiseInArm_run f, s.raiseInArm_result f, s.raise_onlyRunAndResult f s.stepPos s.stepWord⟩

/-! ## The arms -/

section arms
variable {a b c : RegIdx} {s : State}

theorem aluToReg_of_some {op : AluOp} {v : Word} (h : alu op (s.reg b) (s.reg c) = some v) :
    aluToReg op a b c s = s.setReg a v := by
  rw [aluToReg, h]

theorem aluToReg_of_none {op : AluOp} (h : alu op (s.reg b) (s.reg c) = none) :
    aluToReg op a b c s = s.raiseInArm .divideByZero := by
  rw [aluToReg, h]

theorem exec_cmov_of_ne_zero (h : s.reg c ≠ 0) : exec (.cmov a b c) s = .next (s.setReg a (s.reg b)) := by
  have hgate : moveGate (s.reg c) = true := bne_iff_ne.mpr h
  rw [exec, execCmov, if_pos hgate]

theorem exec_cmov_of_eq_zero (h : s.reg c = 0) : exec (.cmov a b c) s = .next s := by
  have hgate : ¬moveGate (s.reg c) = true := by simp [moveGate, h]
  rw [exec, execCmov, if_neg hgate]

theorem exec_add : exec (.add a b c) s = .next (s.setReg a (s.reg b + s.reg c)) :=
  congrArg Host.Outcome.next (aluToReg_of_some (alu_add _ _))

theorem exec_mul : exec (.mul a b c) s = .next (s.setReg a (s.reg b * s.reg c)) :=
  congrArg Host.Outcome.next (aluToReg_of_some (alu_mul _ _))

theorem exec_div_of_ne_zero (h : s.reg c ≠ 0) : exec (.div a b c) s = .next (s.setReg a (s.reg b / s.reg c)) :=
  congrArg Host.Outcome.next (aluToReg_of_some (alu_div h))

theorem exec_div_of_eq_zero (h : s.reg c = 0) : exec (.div a b c) s = .next (s.raiseInArm .divideByZero) :=
  congrArg Host.Outcome.next (aluToReg_of_none (h ▸ alu_div_zero _))

theorem exec_nand : exec (.nand a b c) s = .next (s.setReg a (~~~(s.reg b &&& s.reg c))) :=
  congrArg Host.Outcome.next (aluToReg_of_some (alu_nand _ _))

theorem exec_ortho {imm : Imm} : exec (.ortho a imm) s = .next (s.setReg a (zextImm imm)) := rfl

end arms

/-- 25 bits fit in 32: the zero-extension keeps the value (R69). -/
theorem zextImm_toNat (imm : Imm) : (zextImm imm).toNat = imm.toNat :=
  BitVec.toNat_setWidth_of_le (by decide)

/-- Below the width a NAND's bit is the complement of the operands' conjunction (R68). -/
theorem getLsbD_nand {x y : Word} {n : Nat} (hn : n < 32) :
    (~~~(x &&& y)).getLsbD n = !(x.getLsbD n && y.getLsbD n) := by
  rw [BitVec.getLsbD_not, BitVec.getLsbD_and, decide_eq_true hn, Bool.true_and]

end Sys2Proof.Machine

namespace Sys2Proof.Claims

open Sys2Proof.Machine

/-- Settles O18: by the gate, a register write of x[b] or no change at all. -/
theorem cmovMovesExactlyWhenConditionNonzero : Obligations.CmovMovesExactlyWhenConditionNonzero := by
  refine ⟨fun w hop => decode_standard hop (by decide), fun a b c s => ?_⟩
  by_cases hc : s.reg c = 0
  · exact ⟨s, exec_cmov_of_eq_zero hc, fun hne => absurd hc hne, fun _ => rfl, s.onlyRegister_refl a⟩
  · exact ⟨_, exec_cmov_of_ne_zero hc, fun _ => s.reg_setReg_same a _, fun hz => absurd hz hc,
      s.setReg_onlyRegister a _⟩

/-- Settles O19: a register write of the Words' sum, whose value is the sum modulo 2^32. -/
theorem addWritesTheSumModulo : Obligations.AddWritesTheSumModulo := by
  refine ⟨fun w hop => decode_standard hop (by decide),
    fun a b c s => ⟨_, exec_add, ?_, s.setReg_onlyRegister a _⟩⟩
  rw [State.reg_setReg_same, BitVec.toNat_add]

/-- Settles O20: a register write of the Words' product, whose value is the product modulo 2^32. -/
theorem mulWritesTheProductModulo : Obligations.MulWritesTheProductModulo := by
  refine ⟨fun w hop => decode_standard hop (by decide),
    fun a b c s => ⟨_, exec_mul, ?_, s.setReg_onlyRegister a _⟩⟩
  rw [State.reg_setReg_same, BitVec.toNat_mul]

/-- Settles O21: a register write of the quotient where the divisor is not 0, a fault raised in the arm where it is. -/
theorem divWritesTheQuotientOrFaults : Obligations.DivWritesTheQuotientOrFaults := by
  refine ⟨fun w hop => decode_standard hop (by decide), fun a b c s hc => ?_, fun a b c s hc => ?_⟩
  · refine ⟨_, exec_div_of_ne_zero hc, ?_, s.setReg_onlyRegister a _⟩
    rw [State.reg_setReg_same, BitVec.toNat_udiv]
  · exact ⟨_, exec_div_of_eq_zero hc, s.raiseInArm_trapped _⟩

/-- Settles O22: a register write of the complement, read bit by bit. -/
theorem nandWritesTheBitwiseNotAnd : Obligations.NandWritesTheBitwiseNotAnd := by
  refine ⟨fun w hop => decode_standard hop (by decide),
    fun a b c s => ⟨_, exec_nand, fun n hn => ?_, s.setReg_onlyRegister a _⟩⟩
  rw [State.reg_setReg_same, getLsbD_nand hn]

/-- Settles O23: a register write of the extended immediate, whose value is the immediate's. -/
theorem orthoLoadsTheZeroExtendedImmediate : Obligations.OrthoLoadsTheZeroExtendedImmediate := by
  refine ⟨fun w hop => decode_orthography hop, fun a imm s => ⟨_, exec_ortho, ?_, s.setReg_onlyRegister a _⟩⟩
  rw [State.reg_setReg_same, zextImm_toNat]

end Sys2Proof.Claims
end

section
/-! Proofs: the memory bank instructions. What a read sees after each bank operation (R33 to R37, R44), the bank an
Alloc makes (R35), the arms over these operations (R70 to R74), and O24, O25, O26, O28 and O29. -/

namespace Sys2Proof.Machine

/-! ## What a read depends on -/

section reads
variable {m m' : Memory} {k k' : Word}

/-- A read sees an id's liveness and its bank's contents, and nothing else of memory (R33). -/
theorem memRead_congr (hlive : m'.live k' = m.live k) (hbank : m'.bank k' = m.bank k) (j : Word) :
    memRead m' k' j = memRead m k j := by
  simp only [memRead, hlive, hbank]

/-- An id on the free list is not live (R22). -/
theorem Memory.live_eq_false_of_mem_free (h : k ∈ m.free) : m.live k = false :=
  Bool.eq_false_iff.mpr fun hlive => (Memory.live_iff.mp hlive).2 h

/-- New contents for slot k, where no id but k enters or leaves the free list, leave the other banks' reads alone: what
MemWrite, Replace0, Free, and Alloc of a freed id have in common (R34 to R37). -/
theorem otherBanksRead_set {free : List Word} (b : Bank) (hfree : ∀ x, x ≠ k → (x ∈ free ↔ x ∈ m.free)) :
    Claims.OtherBanksRead k m { banks := m.banks.set k.toNat b, free := free } := by
  intro x j hx
  have hbank : Memory.bank { banks := m.banks.set k.toNat b, free := free } x = m.bank x :=
    Memory.bank_setBank_other m b hx
  refine memRead_congr ?_ hbank j
  rw [Bool.eq_iff_iff, Memory.live_iff, Memory.live_iff, List.length_set, hfree x hx]

theorem otherBanksRead_setBank (m : Memory) (k : Word) (b : Bank) : Claims.OtherBanksRead k m (m.setBank k b) :=
  otherBanksRead_set b fun _ _ => Iff.rfl

end reads

/-! ## MemWrite -/

section memWrite
variable {m m' : Memory} {k j v : Word}

theorem memWrite_ok (hk : m.live k = true) (hj : j.toNat < (m.bank k).len) :
    memWrite m k j v = .ok (m.setBank k ((m.bank k).write j.toNat v)) := by
  rw [memWrite, if_pos hk, if_pos hj]

theorem memWrite_bankNotLive (hk : m.live k = false) : memWrite m k j v = .error .bankNotLive := by
  rw [memWrite, if_neg (Bool.eq_false_iff.mp hk)]

theorem memWrite_offsetOutOfRange (hk : m.live k = true) (hj : (m.bank k).len ≤ j.toNat) :
    memWrite m k j v = .error .offsetOutOfRange := by
  rw [memWrite, if_pos hk, if_neg (not_lt.mpr hj)]

/-- A write that completes had a live bank and an offset in it, and changed that bank alone (R34). -/
theorem memWrite_ok_inv (hw : memWrite m k j v = .ok m') :
    m.live k = true ∧ j.toNat < (m.bank k).len ∧ m' = m.setBank k ((m.bank k).write j.toNat v) := by
  rcases memWrite_cases m k j v with ⟨hk, hj, he⟩ | ⟨-, -, he⟩ | ⟨-, he⟩
  · exact ⟨hk, hj, Except.ok.inj (hw.symm.trans he)⟩
  · simp [he] at hw
  · simp [he] at hw

/-- A write gives the written bank its new contents (R34). -/
theorem memWrite_bank_same (hw : memWrite m k j v = .ok m') : m'.bank k = (m.bank k).write j.toNat v := by
  obtain ⟨hk, -, rfl⟩ := memWrite_ok_inv hw
  exact Memory.bank_setBank_same _ (Memory.live_iff.mp hk).1

/-- A write changes no bank's length (R17, R34). -/
theorem memWrite_bank_len (hw : memWrite m k j v = .ok m') (x : Word) : (m'.bank x).len = (m.bank x).len := by
  by_cases hx : x = k
  · rw [hx, memWrite_bank_same hw, Bank.write_len]
  · obtain ⟨-, -, rfl⟩ := memWrite_ok_inv hw
    rw [Memory.bank_setBank_other m _ hx]

/-- A write changes no id's liveness (R22, R34). -/
theorem memWrite_live (hw : memWrite m k j v = .ok m') (x : Word) : m'.live x = m.live x := by
  obtain ⟨-, -, rfl⟩ := memWrite_ok_inv hw
  exact m.setBank_live k x _

/-- The written Word reads back (R44). -/
theorem memRead_memWrite_same (h : m.wf) (hw : memWrite m k j v = .ok m') : memRead m' k j = .ok v := by
  obtain ⟨hk, hj, -⟩ := memWrite_ok_inv hw
  rw [memRead_ok ((memWrite_live hw k).trans hk) ((memWrite_bank_len hw k).symm ▸ hj), memWrite_bank_same hw,
    Bank.read_write_same (Memory.bank_wellFormed h k)]

/-- A write is not seen at any other address, in the written bank or another (R44). -/
theorem memRead_memWrite_other {x i : Word} (hw : memWrite m k j v = .ok m') (hne : ¬(x = k ∧ i = j)) :
    memRead m' x i = memRead m x i := by
  by_cases hx : x = k
  · have hij : i.toNat ≠ j.toNat := fun e => hne ⟨hx, BitVec.eq_of_toNat_eq e⟩
    simp only [memRead, memWrite_live hw, memWrite_bank_len hw]
    rw [hx, memWrite_bank_same hw, Bank.read_write_other _ _ hij]
  · obtain ⟨-, -, rfl⟩ := memWrite_ok_inv hw
    exact otherBanksRead_setBank m k _ x i hx

end memWrite

/-! ## Alloc -/

/-- Alloc has made bank k of m', n Words each 0: the id is not 0 and was not live, and no other bank's reads changed
(R35, R48). -/
structure FreshBank (m m' : Memory) (k : Word) (n : Nat) : Prop where
  ne_zero : k ≠ 0
  not_live : m.live k = false
  live : m'.live k = true
  bank : m'.bank k = Bank.zeros n
  others : Claims.OtherBanksRead k m m'

/-- Every offset below a fresh bank's length reads 0. -/
theorem FreshBank.memRead_zero {m m' : Memory} {k : Word} {n : Nat} (h : FreshBank m m' k n) {j : Word}
    (hj : j.toNat < n) : memRead m' k j = .ok 0 := by
  have hlen : j.toNat < (m'.bank k).len := by rw [h.bank, Bank.zeros_len]; exact hj
  rw [memRead_ok h.live hlen, h.bank, Bank.zeros_read]

/-- The most recently freed id designates a fresh bank (R35, R48). -/
theorem freshBank_reused {m : Memory} {k : Word} {rest : List Word} (n : Nat) (h : m.wf) (hfree : m.free = k :: rest) :
    FreshBank m { banks := m.banks.set k.toNat (Bank.zeros n), free := rest } k n := by
  obtain ⟨-, -, -, hnodup, hids⟩ := Memory.wf_iff.mp h
  have hmem : k ∈ m.free := hfree ▸ List.mem_cons_self
  obtain ⟨hne, hlt, -⟩ := hids k hmem
  have hrest : k ∉ rest := (List.nodup_cons.mp (hfree ▸ hnodup)).1
  exact
    { ne_zero := hne
      not_live := Memory.live_eq_false_of_mem_free hmem
      live := Memory.live_iff.mpr ⟨by rwa [List.length_set], hrest⟩
      bank := Memory.bank_setBank_same _ hlt
      others := otherBanksRead_set _ fun x hx => by rw [hfree, List.mem_cons, or_iff_right hx] }

/-- A new slot's bank, and every other slot's as before. -/
theorem Memory.bank_append (m : Memory) (k : Word) (b : Bank) (free : List Word) :
    Memory.bank { banks := m.banks ++ [b], free := free } k = if k.toNat = m.banks.length then b else m.bank k := by
  simp only [Memory.bank, List.getD_eq_getElem?_getD]
  rcases lt_trichotomy k.toNat m.banks.length with hlt | heq | hgt
  · rw [if_neg hlt.ne, List.getElem?_append_left hlt]
  · rw [if_pos heq, heq, List.getElem?_concat_length]
    rfl
  · rw [if_neg hgt.ne', List.getElem?_eq_none (by simpa using hgt), List.getElem?_eq_none hgt.le]

/-- With no freed id, N designates a fresh bank in a new slot, as long as N is a Word (R17, R35). -/
theorem freshBank_appended {m : Memory} {k : Word} (n : Nat) (h : m.wf) (hfree : m.free = [])
    (hk : k.toNat = m.banks.length) :
    FreshBank m { banks := m.banks ++ [Bank.zeros n], free := [] } k n := by
  obtain ⟨hpos, -⟩ := Memory.wf_iff.mp h
  have hlen : (m.banks ++ [Bank.zeros n]).length = m.banks.length + 1 := List.length_append
  refine
    { ne_zero := fun h0 => ?_
      not_live := Bool.eq_false_iff.mpr fun hlive => ?_
      live := Memory.live_iff.mpr ⟨hk.trans_lt (by simp), List.not_mem_nil⟩
      bank := by rw [Memory.bank_append, if_pos hk]
      others := fun x j hx => ?_ }
  · rw [h0] at hk
    exact hpos.ne hk
  · exact (Memory.live_iff.mp hlive).1.ne hk
  · have hslot : x.toNat ≠ m.banks.length := fun e => hx (BitVec.eq_of_toNat_eq (e.trans hk.symm))
    refine memRead_congr ?_ (by rw [Memory.bank_append, if_neg hslot]) j
    rw [Bool.eq_iff_iff, Memory.live_iff, Memory.live_iff, hfree, hlen]
    exact and_congr_left fun _ => by omega

section alloc
variable {cfg : Config} {m m' : Memory} {n k : Word}

theorem alloc_storageExhausted (hover : overStorage cfg (m.storageInUse + n.toNat) = true) :
    alloc cfg m n = .error .storageExhausted := by
  rw [alloc, if_pos hover]

theorem alloc_bankIdsExhausted (hroom : overStorage cfg (m.storageInUse + n.toNat) = false) (hfree : m.free = [])
    (hfull : m.size = cfg.maxBanks) : alloc cfg m n = .error .bankIdsExhausted := by
  simp [alloc, hroom, hfree, hfull]

/-- Within both capacities Alloc completes (R35, R84). -/
theorem alloc_completes (hroom : overStorage cfg (m.storageInUse + n.toNat) = false)
    (hid : m.free ≠ [] ∨ m.size ≠ cfg.maxBanks) : ∃ k m', alloc cfg m n = .ok (k, m') := by
  rcases alloc_cases cfg m n with ⟨hover, -⟩ | ⟨-, hfree, hfull, -⟩ | ⟨-, -, -, he⟩ | ⟨-, k, rest, -, he⟩
  · simp [hroom] at hover
  · exact absurd hid (by simp [hfree, Memory.size, hfull])
  · exact ⟨_, _, he⟩
  · exact ⟨_, _, he⟩

/-- An Alloc that completes reused the head of the free list, or took N and added a slot (R35). -/
theorem alloc_ok_inv (ha : alloc cfg m n = .ok (k, m')) :
    (∃ rest, m.free = k :: rest ∧ m' = { banks := m.banks.set k.toNat (Bank.zeros n.toNat), free := rest }) ∨
      (m.free = [] ∧ m.banks.length ≠ cfg.maxBanks ∧ k = BitVec.ofNat 32 m.banks.length ∧
        m' = { banks := m.banks ++ [Bank.zeros n.toNat], free := [] }) := by
  rcases alloc_cases cfg m n with ⟨-, he⟩ | ⟨-, -, -, he⟩ | ⟨-, hfree, hne, he⟩ | ⟨-, k', rest, hfree, he⟩
  · simp [he] at ha
  · simp [he] at ha
  · obtain ⟨rfl, rfl⟩ := Prod.mk.inj (Except.ok.inj (ha.symm.trans he))
    exact .inr ⟨hfree, hne, rfl, rfl⟩
  · obtain ⟨rfl, rfl⟩ := Prod.mk.inj (Except.ok.inj (ha.symm.trans he))
    exact .inl ⟨rest, hfree, rfl⟩

/-- A freed id is reused last in, first out; the table keeps its length (R35). -/
theorem alloc_of_free_cons {x : Word} {rest : List Word} (ha : alloc cfg m n = .ok (k, m'))
    (hfree : m.free = x :: rest) : k = x ∧ m'.free = rest ∧ m'.size = m.size := by
  rcases alloc_ok_inv ha with ⟨_, hcons, rfl⟩ | ⟨hnil, -⟩
  · obtain ⟨rfl, rfl⟩ := List.cons.inj (hcons.symm.trans hfree)
    exact ⟨rfl, rfl, List.length_set⟩
  · simp [hfree] at hnil

/-- With no freed id the new id is N, a Word because N is below MAX_BANKS, and the table grows by one (R17, R35). -/
theorem alloc_of_free_nil (hcfg : cfg.wellFormed = true) (hN : m.size ≤ cfg.maxBanks)
    (ha : alloc cfg m n = .ok (k, m')) (hfree : m.free = []) :
    k.toNat = m.size ∧ m'.free = [] ∧ m'.size = m.size + 1 := by
  rcases alloc_ok_inv ha with ⟨_, hcons, -⟩ | ⟨-, hne, rfl, rfl⟩
  · simp [hfree] at hcons
  · simp only [Config.wellFormed, Bool.and_eq_true, decide_eq_true_eq] at hcfg
    have hword : m.banks.length < 2 ^ 32 := by have := hcfg.2; simp only [Memory.size] at hN; omega
    exact ⟨(BitVec.toNat_ofNat _ _).trans (Nat.mod_eq_of_lt hword), rfl, List.length_append⟩

/-- Alloc's bank is fresh, whichever way its id was found (R35). -/
theorem alloc_freshBank (h : m.wf) (hcfg : cfg.wellFormed = true) (hN : m.size ≤ cfg.maxBanks)
    (ha : alloc cfg m n = .ok (k, m')) : FreshBank m m' k n.toNat := by
  rcases alloc_ok_inv ha with ⟨rest, hfree, rfl⟩ | ⟨hfree, -, -, rfl⟩
  · exact freshBank_reused _ h hfree
  · exact freshBank_appended _ h hfree (alloc_of_free_nil hcfg hN ha hfree).1

end alloc

/-! ## Free and Replace0 -/

section freeAndReplace
variable {cfg : Config} {m : Memory} {k : Word}

theorem abandon_ok (h0 : k ≠ 0) (hk : m.live k = true) :
    abandon m k = .ok { banks := m.banks.set k.toNat Bank.empty, free := k :: m.free } := by
  rw [abandon, if_neg h0, if_pos hk]

theorem abandon_zero : abandon m 0 = .error .abandonBank0 := by
  rw [abandon, if_pos rfl]

theorem abandon_notLive (h0 : k ≠ 0) (hk : m.live k = false) : abandon m k = .error .abandonNotLive := by
  rw [abandon, if_neg h0, if_neg (Bool.eq_false_iff.mp hk)]

/-- Freeing an id leaves every other bank's reads alone (R36). -/
theorem otherBanksRead_freed (m : Memory) (k : Word) :
    Claims.OtherBanksRead k m { banks := m.banks.set k.toNat Bank.empty, free := k :: m.free } :=
  otherBanksRead_set _ fun _ hx => by rw [List.mem_cons, or_iff_right hx]

theorem replace0_ok (hk : m.live k = true)
    (hroom : overStorage cfg (m.storageInUse - (m.bank 0).len + (m.bank k).len) = false) :
    replace0 cfg m k = .ok (m.setBank 0 (m.bank k)) := by
  rw [replace0, if_pos hk, if_neg (Bool.eq_false_iff.mp hroom)]

theorem replace0_bankNotLive (hk : m.live k = false) : replace0 cfg m k = .error .bankNotLive := by
  rw [replace0, if_neg (Bool.eq_false_iff.mp hk)]

theorem replace0_storageExhausted (hk : m.live k = true)
    (hover : overStorage cfg (m.storageInUse - (m.bank 0).len + (m.bank k).len) = true) :
    replace0 cfg m k = .error .storageExhausted := by
  rw [replace0, if_pos hk, if_pos hover]

/-- After Replace0, bank 0 holds bank k's contents (R37). -/
theorem Memory.bank_zero_replaced (h : m.wf) (k : Word) : (m.setBank 0 (m.bank k)).bank 0 = m.bank k :=
  Memory.bank_setBank_same _ (Memory.live_iff.mp (Memory.live_zero h)).1

/-- After Replace0 of a live bank, bank 0 reads, and faults, as that bank did (R37). -/
theorem memRead_zero_replaced (h : m.wf) (hk : m.live k = true) (j : Word) :
    memRead (m.setBank 0 (m.bank k)) 0 j = memRead m k j :=
  memRead_congr ((m.setBank_live 0 0 _).trans ((Memory.live_zero h).trans hk.symm)) (Memory.bank_zero_replaced h k) j

end freeAndReplace

/-! ## The arms -/

/-- Changing memory alone changes no other field. -/
theorem State.withMem_onlyMemory (s : State) (m : Memory) : Claims.OnlyMemory s { s with mem := m } :=
  ⟨rfl, fun _ => rfl, rfl, rfl, rfl, rfl, rfl⟩

/-- An arm whose bank operation faults traps with that operation's fault (R80, R81). -/
theorem State.orRaise_trapped {α : Type} {s : State} {r : Except Fault α} {f : Fault} {next : α → State}
    (h : r = .error f) : Claims.Trapped f s (s.orRaise r next) := by
  rw [h, State.orRaise_error]
  exact s.raiseInArm_trapped f

section arms
variable {a b c : RegIdx} {s : State}

theorem exec_aidx :
    exec (.aidx a b c) s = .next (s.orRaise (memRead s.mem (s.reg b) (s.reg c)) fun v => s.setReg a v) := rfl

theorem exec_aamd :
    exec (.aamd a b c) s =
      .next (s.orRaise (memWrite s.mem (s.reg a) (s.reg b) (s.reg c)) fun m => { s with mem := m }) := rfl

theorem exec_alloc :
    exec (.alloc b c) s =
      .next (s.orRaise (alloc s.cfg s.mem (s.reg c)) fun r => State.setReg { s with mem := r.2 } b r.1) := rfl

theorem exec_aband :
    exec (.aband c) s = .next (s.orRaise (abandon s.mem (s.reg c)) fun m => { s with mem := m }) := rfl

theorem exec_loadp_of_eq_zero (h : s.reg b = 0) : exec (.loadp b c) s = .next { s with finger := s.reg c } := by
  rw [exec, execLoadp, if_pos h]

theorem exec_loadp_of_ne_zero (h : s.reg b ≠ 0) :
    exec (.loadp b c) s =
      .next (s.orRaise (replace0 s.cfg s.mem (s.reg b)) fun m => { s with mem := m, finger := s.reg c }) := by
  rw [exec, execLoadp, if_neg h]

end arms

end Sys2Proof.Machine

namespace Sys2Proof.Claims

open Sys2Proof.Machine

/-- Settles O24: MemRead's three answers, as a register write or as the fault the arm raises. -/
theorem arrayIndexReadsOrFaults : Obligations.ArrayIndexReadsOrFaults := by
  refine ⟨fun w hop => decode_standard hop (by decide), fun a b c s hlive hlt => ?_, fun a b c s hdead => ?_,
    fun a b c s hlive hpast => ?_⟩
  · rw [exec_aidx, memRead_ok hlive hlt, State.orRaise_ok]
    exact ⟨_, rfl, s.reg_setReg_same a _, s.setReg_onlyRegister a _⟩
  · exact ⟨_, exec_aidx, State.orRaise_trapped ((memRead_bankNotLive_iff _ _ _).mpr hdead)⟩
  · exact ⟨_, exec_aidx, State.orRaise_trapped ((memRead_offsetOutOfRange_iff _ _ _).mpr ⟨hlive, hpast⟩)⟩

/-- Settles O28: Free's three answers; the freed slot is empty and heads the free list, so its id is not live. -/
theorem abandonmentFreesOrFaults : Obligations.AbandonmentFreesOrFaults := by
  refine ⟨fun w hop => decode_standard hop (by decide), fun c s hne hlive => ?_, fun c s hzero => ?_,
    fun c s hne hdead => ?_⟩
  · rw [exec_aband, abandon_ok hne hlive, State.orRaise_ok]
    exact ⟨_, rfl, rfl, Memory.live_eq_false_of_mem_free List.mem_cons_self,
      Memory.bank_setBank_same _ (Memory.live_iff.mp hlive).1, otherBanksRead_freed s.mem _, List.length_set,
      s.withMem_onlyMemory _⟩
  · exact ⟨_, exec_aband, State.orRaise_trapped (hzero ▸ abandon_zero)⟩
  · exact ⟨_, exec_aband, State.orRaise_trapped (abandon_notLive hne hdead)⟩

/-- Settles O25: a write that completes reads back at its address and is seen nowhere else. -/
theorem arrayAmendmentWritesOneWordOrFaults : Obligations.ArrayAmendmentWritesOneWordOrFaults := by
  refine ⟨fun w hop => decode_standard hop (by decide), fun a b c s hwf hlive hlt => ?_, fun a b c s hdead => ?_,
    fun a b c s hlive hpast => ?_⟩
  · have hwrite := memWrite_ok (v := s.reg c) hlive hlt
    rw [exec_aamd, hwrite, State.orRaise_ok]
    exact ⟨_, rfl, memRead_memWrite_same hwf hwrite, fun k j => memRead_memWrite_other hwrite,
      memWrite_bank_len hwrite, s.mem.setBank_free _ _, s.mem.setBank_length _ _, s.withMem_onlyMemory _⟩
  · exact ⟨_, exec_aamd, State.orRaise_trapped (memWrite_bankNotLive hdead)⟩
  · exact ⟨_, exec_aamd, State.orRaise_trapped (memWrite_offsetOutOfRange hlive hpast)⟩

/-- Settles O26: the bank Alloc makes is fresh; the invariant keeps N a Word, so that the new id is N itself. -/
theorem allocationMakesAZeroFilledBankOrFaults : Obligations.AllocationMakesAZeroFilledBankOrFaults := by
  refine ⟨fun w hop => decode_standard hop (by decide), fun b c s hinv hroom hid => ?_, fun b c s hover => ?_,
    fun b c s hroom hfree hfull => ?_⟩
  · obtain ⟨hcfg, hwf, hN, -⟩ := hinv
    obtain ⟨k, m', halloc⟩ := alloc_completes hroom hid
    have hfresh := alloc_freshBank hwf hcfg hN halloc
    have hreg : (State.setReg { s with mem := m' } b k).reg b = k := State.reg_setReg_same _ _ _
    rw [exec_alloc, halloc, State.orRaise_ok]
    refine ⟨_, rfl, ?_⟩
    rw [hreg]
    exact ⟨fun x rest => alloc_of_free_cons halloc, alloc_of_free_nil hcfg hN halloc, hfresh.ne_zero, hfresh.not_live,
      hfresh.live, congrArg Bank.len hfresh.bank, fun j => hfresh.memRead_zero, hfresh.others, rfl,
      fun r hr => State.reg_setReg_other _ _ _ _ hr, rfl, rfl, rfl, rfl, rfl⟩
  · exact ⟨_, exec_alloc, State.orRaise_trapped (alloc_storageExhausted hover)⟩
  · exact ⟨_, exec_alloc, State.orRaise_trapped (alloc_bankIdsExhausted hroom hfree hfull)⟩

/-- Settles O29: x[b] = 0 is a jump; any other x[b] is Replace0's three answers, the copy with the jump after it. -/
theorem loadProgramJumpsCopiesOrFaults : Obligations.LoadProgramJumpsCopiesOrFaults := by
  refine ⟨fun w hop => decode_standard hop (by decide), fun b c s hzero => ?_, fun b c s hwf hne hlive hroom => ?_,
    fun b c s hne hdead => ?_, fun b c s hne hlive hover => ?_⟩
  · exact ⟨_, exec_loadp_of_eq_zero hzero, rfl, rfl, fun _ => rfl, rfl, rfl, rfl, rfl, rfl⟩
  · rw [exec_loadp_of_ne_zero hne, replace0_ok hlive hroom, State.orRaise_ok]
    exact ⟨_, rfl, rfl, Memory.bank_zero_replaced hwf _, memRead_zero_replaced hwf hlive,
      otherBanksRead_setBank s.mem 0 _, s.mem.setBank_free _ _, s.mem.setBank_length _ _, rfl, fun _ => rfl, rfl, rfl,
      rfl, rfl⟩
  · exact ⟨_, exec_loadp_of_ne_zero hne, State.orRaise_trapped (replace0_bankNotLive hdead)⟩
  · exact ⟨_, exec_loadp_of_ne_zero hne, State.orRaise_trapped (replace0_storageExhausted hlive hover)⟩

end Sys2Proof.Claims
end

section
/-! Proofs: Halt and Input. The steps that R91 refuses after them, the frame of a change of run state and result, the two
arms (R75, R77), and O30 and O32. -/

namespace Sys2Proof.Machine

/-! ## Steps that are not enabled -/

theorem step_of_halted {s : State} (hrun : s.run = .halted) : step s = .refused .stepAfterHalt := by
  rw [step, hrun]

theorem step_of_awaitingInput {s : State} {token : Token} (hrun : s.run = .awaitingInput token) :
    step s = .refused .stepWhileAwaitingInput := by
  rw [step, hrun]

/-! ## The arms -/

/-- Changing the run state and the result changes no other field. -/
theorem State.withRunResult_onlyRunAndResult (s : State) (run : RunState) (result : Option StepResult) :
    Claims.OnlyRunAndResult s { s with run := run, result := result } :=
  ⟨rfl, s.reg_congr rfl, rfl, rfl, rfl, rfl⟩

theorem exec_halt {s : State} : exec .halt s = .next { s with run := .halted, result := some .halted } := rfl

theorem exec_inp {c : RegIdx} {s : State} :
    exec (.inp c) s = .next { s with
      run := .awaitingInput (s.newToken c), result := some (.inputNeeded (s.newToken c)), issued := s.issued + 1 } :=
  rfl

end Sys2Proof.Machine

namespace Sys2Proof.Claims

open Sys2Proof.Machine

/-- Settles O30: the arm changes the run state and the result alone, and R91 refuses the step of a halted state. -/
theorem haltIsTerminal : Obligations.HaltIsTerminal :=
  ⟨fun w hop => decode_standard hop (by decide), fun s =>
    ⟨_, exec_halt, rfl, rfl, s.withRunResult_onlyRunAndResult _ _, step_of_halted rfl⟩⟩

/-- Settles O32: the token is the one the Input creates, which wraps c, and R91 refuses the step of a waiting state. -/
theorem inputWaitsForTheHost : Obligations.InputWaitsForTheHost := by
  refine ⟨fun w hop => decode_standard hop (by decide), fun c s => ?_⟩
  exact ⟨_, s.newToken c, exec_inp, s.newToken_reg c, rfl, rfl, rfl, State.reg_congr rfl, rfl, rfl, rfl,
    step_of_awaitingInput rfl⟩

end Sys2Proof.Claims
end

section
/-! Proofs: enabledness. Every running state has a next one (R61, R91), a faulted state refuses the step, a terminal one
refuses the host's byte (R86, R92), and O9. -/

namespace Sys2Proof.Machine

/-! ## The step of a running state -/

/-- A fault is not a missing transition: the step that raises one answers the faulted state (R80, R91). -/
theorem exists_step_next_of_running {s : State} (hrun : s.run = .running) : ∃ t, step s = .next t := by
  cases hfetch : fetch s.mem s.finger with
  | error f => exact ⟨_, step_of_fetch_error hrun hfetch⟩
  | ok w =>
    rcases step_of_fetch_ok hrun hfetch with ⟨i, -, hstep⟩ | ⟨_, -, hstep⟩
    · obtain ⟨t, hexec, -⟩ := exec_effect i s.advance
      exact ⟨t, hstep.trans hexec⟩
    · exact ⟨_, hstep⟩

/-! ## Transactions that are not enabled -/

theorem step_of_faulted {s : State} {f : Fault} {pos : Word} {word : Option Word} (hrun : s.run = .faulted f pos word) :
    step s = .refused .stepAfterFault := by
  rw [step, hrun]

theorem provideInput_of_halted {s : State} (hrun : s.run = .halted) (token : Token) (v : Option Byte) :
    provideInput token v s = .refused .noInputPending := by
  rw [provideInput, hrun]

theorem provideInput_of_faulted {s : State} {f : Fault} {pos : Word} {word : Option Word}
    (hrun : s.run = .faulted f pos word) (token : Token) (v : Option Byte) :
    provideInput token v s = .refused .noInputPending := by
  rw [provideInput, hrun]

end Sys2Proof.Machine

namespace Sys2Proof.Claims

open Sys2Proof.Machine

/-- Settles O9: a running state has a next one by the three ways a step can end; each other run state refuses by name. -/
theorem stepEnabledExactlyWhenRunning : Obligations.StepEnabledExactlyWhenRunning := by
  refine ⟨fun _ => exists_step_next_of_running, fun _ _ => step_of_awaitingInput, fun _ => step_of_halted,
    fun _ _ _ _ => step_of_faulted, fun s token v hterminal => ?_⟩
  rcases hterminal with hhalted | ⟨f, pos, w, hfaulted⟩
  · exact provideInput_of_halted hhalted token v
  · exact provideInput_of_faulted hfaulted token v

end Sys2Proof.Claims
end

section
/-! Proofs: the image and self-modification. The reset that R97 refuses, the Words of a program file's bytes (R98), a
fetch after a write to bank 0 (R46, R102), the step at an ArrayAmendment that completes, and O38, O40 and O47. -/

namespace Sys2Proof.Machine

/-! ## An image that is too long -/

/-- The length check comes first, so the refusal is the same whatever the parameters are (R97). -/
theorem resetWith_imageTooLong {image : List Word} (cfg : Config) (issued : Nat) (hlong : 4294967295 < image.length) :
    resetWith cfg image issued = .refused .imageTooLong := by
  rcases resetWith_cases cfg image issued with ⟨hshort, -⟩ | ⟨hshort, -⟩ | ⟨-, hrefused⟩
  · exact absurd hshort (not_le.mpr hlong)
  · exact absurd hshort (not_le.mpr hlong)
  · exact hrefused

/-! ## The image of a program file -/

/-- Appending a byte below some bits multiplies their value by 256 and adds the byte: the two overlap in no bit. -/
theorem append_byte_toNat {n : Nat} (x : BitVec n) (b : Byte) : (x ++ b).toNat = x.toNat * 256 + b.toNat := by
  rw [BitVec.toNat_append, ← Nat.shiftLeft_add_eq_or_of_lt b.isLt, Nat.shiftLeft_eq]

/-- The value of four bytes, the first the most significant (R98). -/
theorem group_toNat (b0 b1 b2 b3 : Byte) :
    (b0 ++ b1 ++ b2 ++ b3).toNat = b0.toNat * 16777216 + b1.toNat * 65536 + b2.toNat * 256 + b3.toNat := by
  simp only [append_byte_toNat]
  omega

/-- Every whole group of four bytes gives one Word, and a trailing partial group none (R98). -/
theorem imageOfBytes_length : ∀ bytes : List Byte, (imageOfBytes bytes).length = bytes.length / 4
  | [] | [_] | [_, _] | [_, _, _] => by simp [imageOfBytes]
  | _ :: _ :: _ :: _ :: rest => by
    simp only [imageOfBytes, List.length_cons, imageOfBytes_length rest]
    omega

/-- Word i is the i-th group of four bytes (R98). -/
theorem imageOfBytes_getD : ∀ (bytes : List Byte) (i : Nat), i < bytes.length / 4 →
    (imageOfBytes bytes).getD i 0 =
      bytes.getD (4 * i) 0 ++ bytes.getD (4 * i + 1) 0 ++ bytes.getD (4 * i + 2) 0 ++ bytes.getD (4 * i + 3) 0
  | [], _, h | [_], _, h | [_, _], _, h | [_, _, _], _, h => absurd h (by simp)
  | _ :: _ :: _ :: _ :: _, 0, _ => rfl
  | _ :: _ :: _ :: _ :: rest, i + 1, h => by
    have hrest : i < rest.length / 4 := by simp only [List.length_cons] at h; omega
    exact imageOfBytes_getD rest i hrest

/-! ## A fetch after a write to bank 0 -/

section fetchAfterWrite
variable {m m' : Memory} {j v : Word}

/-- The Word written to bank 0 is the one the next fetch of its offset gives (R46). -/
theorem fetch_memWrite_same (h : m.wf) (hw : memWrite m 0 j v = .ok m') : fetch m' j = .ok v := by
  obtain ⟨-, hj, -⟩ := memWrite_ok_inv hw
  rw [fetch_ok ((memWrite_bank_len hw 0).symm ▸ hj), memWrite_bank_same hw,
    Bank.read_write_same (Memory.bank_wellFormed h 0)]

/-- A write to bank 0 is not seen by the fetch of any other offset, whether that fetch faults or not (R46). -/
theorem fetch_memWrite_other {f : Word} (hw : memWrite m 0 j v = .ok m') (hne : f ≠ j) : fetch m' f = fetch m f := by
  have hoffset : f.toNat ≠ j.toNat := fun e => hne (BitVec.eq_of_toNat_eq e)
  simp only [fetch, memWrite_bank_len hw]
  rw [memWrite_bank_same hw, Bank.read_write_other _ _ hoffset]

end fetchAfterWrite

/-! ## The step at a known instruction -/

section stepAtInstruction
variable {s : State} {w : Word}

/-- A step that fetches a Word which decodes runs that instruction in the advanced state (R61). -/
theorem step_of_fetch_decode {i : Instr} (hrun : s.run = .running) (hfetch : fetch s.mem s.finger = .ok w)
    (hdecode : decode w = .ok i) : step s = exec i s.advance := by
  rcases step_of_fetch_ok hrun hfetch with ⟨i', hok, hstep⟩ | ⟨e, herror, -⟩
  · obtain rfl : i = i' := Except.ok.inj (hdecode.symm.trans hok)
    exact hstep
  · simp [hdecode] at herror

/-- A step at an ArrayAmendment whose write completes changes the advanced state's memory by that write alone (R71). -/
theorem step_aamd_of_memWrite_ok {m' : Memory} {a b c : RegIdx} (hrun : s.run = .running)
    (hfetch : fetch s.mem s.finger = .ok w) (hdecode : decode w = .ok (.aamd a b c))
    (hwrite : memWrite s.mem (s.reg a) (s.reg b) (s.reg c) = .ok m') : step s = .next { s.advance with mem := m' } := by
  rw [step_of_fetch_decode hrun hfetch hdecode, exec_aamd, State.advance_mem, State.advance_reg, State.advance_reg,
    State.advance_reg, hwrite, State.orRaise_ok]

end stepAtInstruction

end Sys2Proof.Machine

namespace Sys2Proof.Claims

open Sys2Proof.Machine

/-- Settles O38: a state's reset is the reset of its parameters, which checks the length first. -/
theorem tooLongAnImageIsRefused : Obligations.TooLongAnImageIsRefused := fun s _ hlong =>
  resetWith_imageTooLong s.cfg s.issued hlong

/-- Settles O40: Word i is the i-th group of four bytes, whose value is the big-endian sum. -/
theorem imageIsBigEndianWords : Obligations.ImageIsBigEndianWords := by
  refine fun bytes => ⟨imageOfBytes_length bytes, fun i hi => ?_⟩
  rw [imageOfBytes_getD bytes i hi, group_toNat]

/-- Settles O47: the fetch laws of a write to bank 0; the amendment's write lands where its step leaves the finger, so
the next step fetches the written Word. -/
theorem writtenInstructionRunsNext : Obligations.WrittenInstructionRunsNext := by
  refine ⟨fun m m' j v hwf hwrite f => ?_, fun s w a b c i hinv hrun hfetch hdecode ha hb hlt hwritten => ?_⟩
  · split_ifs with hf
    · exact hf ▸ fetch_memWrite_same hwf hwrite
    · exact fetch_memWrite_other hwrite hf
  · obtain ⟨-, hwf, -⟩ := hinv
    have hwrite := memWrite_ok (v := s.reg c) (Memory.live_zero hwf) hlt
    have hnext := fetch_memWrite_same hwf hwrite
    exact ⟨_, step_aamd_of_memWrite_ok hrun hfetch hdecode (ha.symm ▸ hb.symm ▸ hwrite), rfl, hnext,
      step_of_fetch_decode hrun hnext hwritten⟩

end Sys2Proof.Claims
end

section
/-! Proofs: the encoder. Encoded Words and their fields as arithmetic (R59), the round trip, what encoding a decoded
Word keeps of it, bit by bit (R55), and O1, O2, O3 and O6. -/

namespace Sys2Proof

open Sys2Proof.Claims

/-! ## The encoded Words as numbers -/

/-- A field placed above a Word's bits overlaps them in no bit, so the disjunction is the sum. -/
theorem field_or_toNat {n k : Nat} (x : BitVec n) {y : Word} (hfit : n + k ≤ 32) (hy : y.toNat < 2 ^ k) :
    (x.setWidth 32 <<< k ||| y).toNat = x.toNat * 2 ^ k + y.toNat := by
  have hplaced : x.toNat * 2 ^ k < 2 ^ 32 :=
    calc x.toNat * 2 ^ k < 2 ^ n * 2 ^ k := Nat.mul_lt_mul_of_pos_right x.isLt (Nat.two_pow_pos k)
      _ = 2 ^ (n + k) := (Nat.pow_add 2 n k).symm
      _ ≤ 2 ^ 32 := Nat.pow_le_pow_right (by decide) hfit
  have hshift : (x.setWidth 32 <<< k).toNat = x.toNat <<< k := by
    rw [BitVec.toNat_shiftLeft, BitVec.toNat_setWidth_of_le (by omega), Nat.shiftLeft_eq, Nat.mod_eq_of_lt hplaced]
  rw [BitVec.toNat_or, hshift, ← Nat.shiftLeft_add_eq_or_of_lt hy, Nat.shiftLeft_eq]

section encoded
variable (op : Opcode) (a b c : RegIdx) (v : Imm)

/-- `EncStd` as the sum of its fields at their places (R59). -/
theorem encStd_toNat :
    (encStd op a b c).toNat = op.toNat * 268435456 + a.toNat * 64 + b.toNat * 8 + c.toNat := by
  have hc : (c.setWidth 32).toNat = c.toNat := BitVec.toNat_setWidth_of_le (by decide)
  have hbc := field_or_toNat (k := 3) b (y := c.setWidth 32) (by decide) (by omega)
  have habc := field_or_toNat (k := 6) a (y := b.setWidth 32 <<< 3 ||| c.setWidth 32) (by decide) (by omega)
  rw [encStd, BitVec.or_assoc, BitVec.or_assoc, field_or_toNat op (by decide) (by omega)]
  omega

/-- `EncOrtho` as the sum of its fields at their places (R59). -/
theorem encOrtho_toNat : (encOrtho a v).toNat = 13 * 268435456 + a.toNat * 33554432 + v.toNat := by
  have hv : (v.setWidth 32).toNat = v.toNat := BitVec.toNat_setWidth_of_le (by decide)
  have hav := field_or_toNat (k := 25) a (y := v.setWidth 32) (by decide) (by omega)
  have hop : (13 : Word) <<< 28 = (13 : Opcode).setWidth 32 <<< 28 := rfl
  rw [encOrtho, BitVec.or_assoc, hop, field_or_toNat (13 : Opcode) (by decide) (by omega)]
  have h13 : (13 : Opcode).toNat = 13 := rfl
  omega

/-! ## The fields of the encoded Words -/

@[simp] theorem opValue_encStd : opValue (encStd op a b c) = op.toNat := by
  rw [← opcodeOf_toNat, Laws.opcodeOf_encStd]

@[simp] theorem fieldA_encStd : fieldA (encStd op a b c) = a := by
  apply BitVec.eq_of_toNat_eq
  rw [fieldA, BitVec.toNat_ofNat, encStd_toNat]
  omega

@[simp] theorem fieldB_encStd : fieldB (encStd op a b c) = b := by
  apply BitVec.eq_of_toNat_eq
  rw [fieldB, BitVec.toNat_ofNat, encStd_toNat]
  omega

@[simp] theorem fieldC_encStd : fieldC (encStd op a b c) = c := by
  apply BitVec.eq_of_toNat_eq
  rw [fieldC, BitVec.toNat_ofNat, encStd_toNat]
  omega

@[simp] theorem opValue_encOrtho : opValue (encOrtho a v) = 13 := by
  rw [← opcodeOf_toNat, Laws.opcodeOf_encOrtho]
  rfl

@[simp] theorem orthoFieldA_encOrtho : orthoFieldA (encOrtho a v) = a := by
  apply BitVec.eq_of_toNat_eq
  rw [orthoFieldA, BitVec.toNat_ofNat, encOrtho_toNat]
  omega

@[simp] theorem immediate_encOrtho : immediate (encOrtho a v) = v := by
  apply BitVec.eq_of_toNat_eq
  rw [immediate, BitVec.toNat_ofNat, encOrtho_toNat]
  omega

/-! ## Decoding an encoded Word -/

/-- An encoded Word of the standard format decodes by the opcode map's row for its opcode (R54, R59). -/
theorem decode_encStd (hop : op.toNat ≤ 12) :
    decode (encStd op a b c) = instrOf { op := op, a := a, b := b, c := c, imm := immediate (encStd op a b c) } := by
  rw [decode_standard (opValue_encStd op a b c) hop, fieldA_encStd, fieldB_encStd, fieldC_encStd, BitVec.ofNat_toNat,
    BitVec.setWidth_eq]

theorem decode_encOrtho : decode (encOrtho a v) = .ok (.ortho a v) := by
  rw [decode_orthography (opValue_encOrtho a v), orthoFieldA_encOrtho, immediate_encOrtho]

end encoded

/-- The round trip (R59). -/
theorem decode_encode (i : Instr) : decode (encode i) = .ok i := by
  cases i with
  | ortho a imm => exact decode_encOrtho a imm
  | _ => exact decode_encStd _ _ _ _ (by decide)

theorem opValue_encode (i : Instr) : opValue (encode i) = i.opcode.toNat := by
  cases i with
  | ortho a imm => exact opValue_encOrtho a imm
  | _ => exact opValue_encStd _ _ _ _

/-! ## Encoding a decoded Word -/

/-- How many low bits of a Word with this opcode its instruction uses, below the opcode's own four (R55). -/
def lowBits : Nat → Nat
  | 0 | 1 | 2 | 3 | 4 | 5 | 6 => 9
  | 7 => 0
  | 8 | 12 => 6
  | 9 | 10 | 11 => 3
  | _ => 28

theorem usedBit_iff {op n : Nat} (hop : op ≤ 13) : UsedBit op n ↔ 28 ≤ n ∨ n < lowBits op := by
  unfold UsedBit lowBits
  split
  case h_14 =>
    simp only [imp_false] at *
    omega
  all_goals omega

theorem lowBits_le (op : Nat) : lowBits op ≤ 28 := by
  unfold lowBits
  split <;> decide

theorem legal_of_decode {w : Word} {i : Instr} (h : decode w = .ok i) : opValue w ≤ 13 := by
  by_contra hillegal
  simp [decode_illegal (not_le.mp hillegal)] at h

/-- Encoding a decoded Word keeps its opcode and its used low bits, and clears all others: at each row of the opcode map
(R54) the fields that the row uses, put together again, are the Word's low bits. -/
theorem encode_toNat_of_decode {w : Word} {i : Instr} (h : decode w = .ok i) :
    (encode i).toNat = 2 ^ 28 * opValue w + w.toNat % 2 ^ lowBits (opValue w) := by
  have hlegal := legal_of_decode h
  by_cases hortho : opValue w = 13
  · obtain rfl := Except.ok.inj ((decode_orthography hortho).symm.trans h)
    rw [hortho, encode, encOrtho_toNat, orthoFieldA, immediate, BitVec.toNat_ofNat, BitVec.toNat_ofNat]
    simp only [lowBits]
    omega
  · generalize hop : opValue w = n at *
    have hn : n ≤ 12 := by omega
    rw [decode_standard hop hn] at h
    interval_cases n
    all_goals
      cases h
      simp only [encode, encStd_toNat, fieldA, fieldB, fieldC, BitVec.toNat_ofNat, BitVec.reduceToNat, lowBits]
      omega

/-- Bits 31..28 are the opcode's (R51). -/
theorem getLsbD_eq_testBit_opValue (w : Word) {n : Nat} (hn : 28 ≤ n) :
    w.getLsbD n = (opValue w).testBit (n - 28) := by
  have hop : opValue w = w.toNat >>> 28 := (Nat.shiftRight_eq_div_pow _ 28).symm
  rw [hop, Nat.testBit_shiftRight, Nat.add_sub_cancel' hn, BitVec.getLsbD]

/-- Encoding a decoded Word keeps its used bits and clears its ignored ones (R55, R59). -/
theorem getLsbD_encode_of_decode {w : Word} {i : Instr} (h : decode w = .ok i) (n : Nat) :
    (encode i).getLsbD n = (decide (UsedBit (opValue w) n) && w.getLsbD n) := by
  have hlow : w.toNat % 2 ^ lowBits (opValue w) < 2 ^ 28 :=
    (Nat.mod_lt _ (Nat.two_pow_pos _)).trans_le (Nat.pow_le_pow_right (by decide) (lowBits_le _))
  simp only [usedBit_iff (legal_of_decode h)]
  rw [BitVec.getLsbD, encode_toNat_of_decode h, Nat.testBit_two_pow_mul_add _ hlow]
  by_cases hn : n < 28
  · rw [if_pos hn, Nat.testBit_mod_two_pow, BitVec.getLsbD]
    simp only [not_le.mpr hn, false_or]
  · rw [if_neg hn, getLsbD_eq_testBit_opValue w (not_lt.mp hn)]
    simp [not_lt.mp hn]

/-- The opcode is used by every instruction: Words that agree on its bits have one opcode (R51, R55). -/
theorem opValue_congr {w w' : Word} (h : ∀ n, n < 32 → 28 ≤ n → w.getLsbD n = w'.getLsbD n) :
    opValue w = opValue w' := by
  rw [← opcodeOf_toNat, ← opcodeOf_toNat]
  congr 1
  apply BitVec.eq_of_getLsbD_eq
  intro n hn
  simp only [opcodeOf, BitVec.getLsbD_extractLsb', h (28 + n) (by omega) (by omega)]

/-- Legal Words that agree on the used bits decode alike: their instructions have one encoding (R55). -/
theorem decode_congr {w w' : Word} {i : Instr} (h : decode w = .ok i)
    (hused : ∀ n, n < 32 → UsedBit (opValue w) n → w.getLsbD n = w'.getLsbD n) : decode w' = .ok i := by
  have hop : opValue w = opValue w' := opValue_congr fun n hn hop => hused n hn (.inl hop)
  obtain ⟨i', h', -⟩ := decode_legal (hop ▸ legal_of_decode h)
  have henc : encode i = encode i' := by
    apply BitVec.eq_of_getLsbD_eq
    intro n hn
    rw [getLsbD_encode_of_decode h, getLsbD_encode_of_decode h', ← hop]
    by_cases hn' : UsedBit (opValue w) n
    · rw [hused n hn hn']
    · simp only [hn', decide_false, Bool.false_and]
  rw [h', ← decode_encode i, henc, decode_encode]

/-- The mask of R55 marks exactly the bits that are not used. -/
theorem getLsbD_ignoredMask : ∀ op : Opcode, op.toNat ≤ 13 → ∀ n, n < 32 →
    (ignoredMask op).getLsbD n = !decide (UsedBit op.toNat n) := by
  decide

end Sys2Proof

namespace Sys2Proof.Claims

/-- Settles O1: the fields of the encoded Words are read off their values; the bits by encoding the decoded Word. -/
theorem decodeInvertsEncode : Obligations.DecodeInvertsEncode := by
  refine ⟨decode_encode, fun op a b c hop => ?_, fun a v => ?_, fun i n _ hunused => ?_, fun i w hused => ?_⟩
  · have hne : op.toNat ≠ 13 := by omega
    exact ⟨encStd_toNat op a b c, Laws.opcodeOf_encStd op a b c, by simp [fieldsOf_a, hne], by simp, by simp⟩
  · exact ⟨encOrtho_toNat a v, Laws.opcodeOf_encOrtho a v, by simp [fieldsOf_a], by simp⟩
  · have hop := opValue_encode i
    rw [getLsbD_encode_of_decode (decode_encode i), hop, decide_eq_false hunused, Bool.false_and]
  · exact decode_congr (decode_encode i) fun n hn hbit => (hused n hn (opValue_encode i ▸ hbit)).symm

/-- Settles O2: both sides hold the used bits of `w` and 0 in every other. -/
theorem encodeOfDecodeClearsIgnoredBits : Obligations.EncodeOfDecodeClearsIgnoredBits := by
  intro w i h
  apply BitVec.eq_of_getLsbD_eq
  intro n hn
  have hmask := getLsbD_ignoredMask (opcodeOf w) (opcodeOf_toNat w ▸ legal_of_decode h) n hn
  rw [getLsbD_encode_of_decode h, BitVec.getLsbD_and, BitVec.getLsbD_not, hmask, opcodeOf_toNat, decide_eq_true hn,
    Bool.true_and, Bool.not_not, Bool.and_comm]

/-- Settles O3: a legal Word has an instruction, and every Word that agrees with it on the used bits has the same. -/
theorem decodingReadsOnlyTheUsedBits : Obligations.DecodingReadsOnlyTheUsedBits := by
  intro w w' hused hlegal
  obtain ⟨i, h, -⟩ := decode_legal hlegal
  exact ⟨i, h, decode_congr h hused⟩

/-- Settles O6: each Word of the table is decoded. -/
theorem specDecoderVectors : Obligations.SpecDecoderVectors :=
  ⟨rfl, rfl, rfl, rfl, rfl, rfl, rfl, rfl, rfl, rfl, rfl⟩

end Sys2Proof.Claims
end

section
/-! Proofs: the bank selector. When each operation completes and with which fault it stops (R33 to R37), reads after two
operations (R44, R47, R48), the canonical form of a bank (log 9), and O43, O44, O45, O46 and O49. -/

namespace Sys2Proof.Machine

/-! ## Operations that complete -/

section completes
variable {cfg : Config} {m m' : Memory} {k n j v : Word}

/-- A Free that completes had a live id other than 0, emptied its slot and pushed it (R36). -/
theorem abandon_ok_inv (ha : abandon m k = .ok m') :
    k ≠ 0 ∧ m.live k = true ∧ m' = { banks := m.banks.set k.toNat Bank.empty, free := k :: m.free } := by
  rcases abandon_cases m k with ⟨-, he⟩ | ⟨h0, hk, he⟩ | ⟨-, -, he⟩
  · simp [he] at ha
  · exact ⟨h0, hk, Except.ok.inj (ha.symm.trans he)⟩
  · simp [he] at ha

/-- A Replace0 that completes had a live bank and room for its copy, and changed bank 0 alone (R37). -/
theorem replace0_ok_inv (hr : replace0 cfg m k = .ok m') :
    m.live k = true ∧ overStorage cfg (m.storageInUse - (m.bank 0).len + (m.bank k).len) = false ∧
      m' = m.setBank 0 (m.bank k) := by
  rcases replace0_cases cfg m k with ⟨hk, hroom, he⟩ | ⟨-, -, he⟩ | ⟨-, he⟩
  · exact ⟨hk, hroom, Except.ok.inj (hr.symm.trans he)⟩
  · simp [he] at hr
  · simp [he] at hr

theorem memWrite_size (hw : memWrite m k j v = .ok m') : m'.size = m.size := by
  obtain ⟨-, -, rfl⟩ := memWrite_ok_inv hw
  exact m.setBank_length _ _

/-- Alloc adds a slot where no id is free, and never one past MAX_BANKS (R17, R35). -/
theorem alloc_size (ha : alloc cfg m n = .ok (k, m')) :
    m'.size = m.size ∨ (m.size ≠ cfg.maxBanks ∧ m'.size = m.size + 1) := by
  rcases alloc_ok_inv ha with ⟨rest, -, rfl⟩ | ⟨-, hne, -, rfl⟩
  · exact .inl List.length_set
  · exact .inr ⟨hne, List.length_append⟩

theorem abandon_size (ha : abandon m k = .ok m') : m'.size = m.size := by
  obtain ⟨-, -, rfl⟩ := abandon_ok_inv ha
  exact List.length_set

theorem replace0_size (hr : replace0 cfg m k = .ok m') : m'.size = m.size := by
  obtain ⟨-, -, rfl⟩ := replace0_ok_inv hr
  exact m.setBank_length _ _

end completes

/-! ## Ids -/

/-- An id on the free list is that of a slot (R19). -/
theorem Memory.lt_size_of_mem_free {m : Memory} {k : Word} (h : m.wf) (hk : k ∈ m.free) : k.toNat < m.size := by
  obtain ⟨-, -, -, -, hids⟩ := Memory.wf_iff.mp h
  exact (hids k hk).2.1

theorem Memory.live_eq_false_of_size_le {m : Memory} {k : Word} (hk : m.size ≤ k.toNat) : m.live k = false :=
  Bool.eq_false_iff.mpr fun hlive => absurd (Memory.live_iff.mp hlive).1 (not_lt.mpr hk)

/-! ## Reads after two operations -/

/-- A fresh bank's reads in full: 0 below its length, a fault past it (R33, R35). -/
theorem FreshBank.memRead_eq {m m' : Memory} {k : Word} {n : Nat} (h : FreshBank m m' k n) (j : Word) :
    memRead m' k j = if j.toNat < n then .ok 0 else .error .offsetOutOfRange := by
  split_ifs with hj
  · exact h.memRead_zero hj
  · exact (memRead_offsetOutOfRange_iff m' k j).mpr ⟨h.live, by rw [h.bank]; exact not_lt.mp hj⟩

/-- The Alloc after a Free takes the freed id, whatever the parameters are (R26, R48). -/
theorem alloc_abandon {cfg : Config} {m m1 m2 : Memory} {k n k' : Word} (h : m.wf) (hfree : abandon m k = .ok m1)
    (halloc : alloc cfg m1 n = .ok (k', m2)) :
    k' = k ∧ m2.free = m.free ∧ m2.size = m.size ∧ FreshBank m1 m2 k n.toNat := by
  have hcons : m1.free = k :: m.free := by
    obtain ⟨-, -, rfl⟩ := abandon_ok_inv hfree
    rfl
  obtain ⟨rfl, hrest, hsize⟩ := alloc_of_free_cons halloc hcons
  refine ⟨rfl, hrest, hsize.trans (abandon_size hfree), ?_⟩
  rcases alloc_ok_inv halloc with ⟨rest, hcons', rfl⟩ | ⟨hnil, -⟩
  · exact freshBank_reused n.toNat (abandon_wf h hfree) hcons'
  · simp [hcons] at hnil

theorem memRead_abandon_other {m m' : Memory} {k k' : Word} (ha : abandon m k = .ok m') (hne : k' ≠ k) (j : Word) :
    memRead m' k' j = memRead m k' j := by
  obtain ⟨-, -, rfl⟩ := abandon_ok_inv ha
  exact otherBanksRead_freed m k k' j hne

section replace0
variable {cfg : Config} {m m' : Memory} {k : Word}

/-- After Replace0(k) bank 0 reads as bank k did (R37). -/
theorem memRead_replace0_zero (h : m.wf) (hr : replace0 cfg m k = .ok m') (j : Word) :
    memRead m' 0 j = memRead m k j := by
  obtain ⟨hk, -, rfl⟩ := replace0_ok_inv hr
  exact memRead_zero_replaced h hk j

theorem memRead_replace0_other {k' : Word} (hr : replace0 cfg m k = .ok m') (hne : k' ≠ 0) (j : Word) :
    memRead m' k' j = memRead m k' j := by
  obtain ⟨-, -, rfl⟩ := replace0_ok_inv hr
  exact otherBanksRead_setBank m 0 _ k' j hne

end replace0

/-! ## The canonical form of a bank -/

/-- The first listed Word of canonical cells is not 0, where any cells that start later read 0. -/
theorem cellsRead_ne_of_first {lo len i : Nat} {u : Word} {rest cs : List (Nat × Word)}
    (h : cellsWellFormed lo len ((i, u) :: rest) = true) (h' : cellsWellFormed (i + 1) len cs = true) :
    cellsRead ((i, u) :: rest) i ≠ cellsRead cs i := by
  obtain ⟨-, -, hu, -⟩ := cellsWellFormed_cons.mp h
  rw [cellsRead, if_pos rfl, cellsRead_below h' (Nat.lt_succ_self i)]
  exact hu

/-- Cells in canonical form that read alike below the length are equal. -/
theorem cells_ext {lo len : Nat} {cs cs' : List (Nat × Word)} (h : cellsWellFormed lo len cs = true)
    (h' : cellsWellFormed lo len cs' = true) (hread : ∀ j, j < len → cellsRead cs j = cellsRead cs' j) : cs = cs' := by
  induction cs generalizing lo cs' with
  | nil =>
    cases cs' with
    | nil => rfl
    | cons p' rest' =>
      obtain ⟨-, hlt, -, -⟩ := cellsWellFormed_cons.mp h'
      exact absurd (hread p'.1 hlt).symm (cellsRead_ne_of_first h' rfl)
  | cons p rest ih =>
    obtain ⟨i, u⟩ := p
    obtain ⟨hlo, hlt, hu, hrest⟩ := cellsWellFormed_cons.mp h
    cases cs' with
    | nil => exact absurd (hread i hlt) (cellsRead_ne_of_first h rfl)
    | cons p' rest' =>
      obtain ⟨i', u'⟩ := p'
      obtain ⟨hlo', hlt', hu', hrest'⟩ := cellsWellFormed_cons.mp h'
      rcases lt_trichotomy i i' with hii | rfl | hii
      · exact absurd (hread i hlt)
          (cellsRead_ne_of_first h (cellsWellFormed_cons.mpr ⟨hii, hlt', hu', hrest'⟩))
      · have huu : u = u' := by simpa [cellsRead] using hread i hlt
        have htail : ∀ j, j < len → cellsRead rest j = cellsRead rest' j := by
          intro j hj
          by_cases hij : i = j
          · rw [cellsRead_below hrest (by omega), cellsRead_below hrest' (by omega)]
          · simpa [cellsRead, hij] using hread j hj
        rw [huu, ih hrest hrest' htail]
      · exact absurd (hread i' hlt').symm
          (cellsRead_ne_of_first h' (cellsWellFormed_cons.mpr ⟨hii, hlt, hu, hrest⟩))

end Sys2Proof.Machine

namespace Sys2Proof.Claims

open Sys2Proof.Machine

/-- Settles O43: liveness is a slot that is not on the free list, and the free list holds ids of slots other than 0. -/
theorem everyIdIsLiveOrFree : Obligations.EveryIdIsLiveOrFree := by
  intro m hwf k
  refine ⟨fun hslot => ?_, fun hpast => ?_, Memory.live_zero hwf⟩
  · by_cases hfree : k ∈ m.free
    · exact .inr ⟨Memory.live_eq_false_of_mem_free hfree, hfree⟩
    · exact .inl ⟨Memory.live_iff.mpr ⟨hslot, hfree⟩, hfree⟩
  · exact ⟨Memory.live_eq_false_of_size_le hpast,
      fun hfree => absurd (Memory.lt_size_of_mem_free hwf hfree) (not_lt.mpr hpast)⟩

/-- Settles O44: the read of the written address, and the read of any other. -/
theorem readSeesTheLastWrite : Obligations.ReadSeesTheLastWrite := by
  intro m m' k j v hwf hwrite k' j'
  split_ifs with hsame
  · obtain ⟨rfl, rfl⟩ := hsame
    exact memRead_memWrite_same hwf hwrite
  · exact memRead_memWrite_other hwrite hsame

/-- Settles O45: the Alloc reuses the freed id for a fresh bank; neither operation is seen in any other bank. -/
theorem freedIdIsReusedWithFreshZeros : Obligations.FreedIdIsReusedWithFreshZeros := by
  intro cfg m m1 m2 k n k' hwf hfree halloc
  obtain ⟨hid, hlist, hsize, hfresh⟩ := alloc_abandon hwf hfree halloc
  exact ⟨hid, hlist, hsize, hfresh.memRead_eq,
    fun x j hx => (hfresh.others x j hx).trans (memRead_abandon_other hfree hx j)⟩

/-- Settles O46: Replace0 makes bank 0 read as bank k, and no later operation on one of the two is seen in the other. -/
theorem loadedProgramIsAnIndependentCopy : Obligations.LoadedProgramIsAnIndependentCopy := by
  intro cfg m m1 k hwf hk hr
  have hzero := memRead_replace0_zero hwf hr
  have hcopied := memRead_replace0_other hr hk
  exact ⟨fun j => ⟨hzero j, hcopied j⟩,
    fun i v m2 hwrite j => (memRead_memWrite_other hwrite fun h => hk h.1.symm).trans (hzero j),
    fun i v m2 hwrite j => (memRead_memWrite_other hwrite fun h => hk h.1).trans (hcopied j),
    fun m2 hfree j => (memRead_abandon_other hfree hk.symm j).trans (hzero j)⟩

/-- Settles O49: the lengths are equal, and so are the cells, which read alike. -/
theorem banksThatReadAlikeAreEqual : Obligations.BanksThatReadAlikeAreEqual := by
  rintro ⟨len, cells⟩ ⟨len', cells'⟩ hwf hwf' (rfl : len = len') hread
  obtain ⟨-, hcells⟩ := Bank.wellFormed_iff.mp hwf
  obtain ⟨-, hcells'⟩ := Bank.wellFormed_iff.mp hwf'
  exact congrArg (Bank.mk len) (cells_ext hcells hcells' hread)

end Sys2Proof.Claims
end

section
/-! Proofs: the invariant. What each bank operation does to the storage in use (R21), the capacity bounds it keeps, the
invariant through an arm, a step and every host transaction, and O50, O51 and O52. -/

namespace Sys2Proof.Machine

/-! ## The storage in use -/

/-- New contents for one slot change the sum of the lengths by that slot's. -/
theorem sum_len_set (bs : List Bank) {i : Nat} (b : Bank) (h : i < bs.length) :
    ((bs.set i b).map Bank.len).sum + (bs.getD i Bank.empty).len = (bs.map Bank.len).sum + b.len := by
  induction bs generalizing i with
  | nil => simp at h
  | cons x rest ih =>
    cases i with
    | zero =>
      simp only [List.set_cons_zero, List.map_cons, List.sum_cons, List.getD_cons_zero]
      omega
    | succ i =>
      have hrest := ih (Nat.lt_of_succ_lt_succ h)
      simp only [List.set_cons_succ, List.map_cons, List.sum_cons, List.getD_cons_succ]
      omega

/-- New contents for one slot, whatever becomes of the free list, as long as both memories are canonical (R21). -/
theorem Memory.storageInUse_set {m : Memory} {k : Word} {b : Bank} {free : List Word} (h : m.wf)
    (h' : Memory.wf { banks := m.banks.set k.toNat b, free := free }) (hk : k.toNat < m.size) :
    Memory.storageInUse { banks := m.banks.set k.toNat b, free := free } + (m.bank k).len =
      m.storageInUse + b.len := by
  rw [Memory.storageInUse_eq_sum h, Memory.storageInUse_eq_sum h']
  exact sum_len_set m.banks b hk

section storage
variable {cfg : Config} {m m' : Memory} {k n j v : Word}

theorem memWrite_storageInUse (h : m.wf) (hw : memWrite m k j v = .ok m') : m'.storageInUse = m.storageInUse := by
  have h' := memWrite_wf h hw
  obtain ⟨hk, -, rfl⟩ := memWrite_ok_inv hw
  have hsum := Memory.storageInUse_set h h' (Memory.live_iff.mp hk).1
  exact Nat.add_right_cancel hsum

/-- Alloc puts n Words into an empty slot or a new one (R35). -/
theorem alloc_storageInUse (h : m.wf) (h' : m'.wf) (ha : alloc cfg m n = .ok (k, m')) :
    m'.storageInUse = m.storageInUse + n.toNat := by
  rcases alloc_ok_inv ha with ⟨rest, hfree, rfl⟩ | ⟨-, -, -, rfl⟩
  · obtain ⟨-, -, -, -, hids⟩ := Memory.wf_iff.mp h
    obtain ⟨-, hk, hempty⟩ := hids k (hfree ▸ List.mem_cons_self)
    have hsum := Memory.storageInUse_set h h' hk
    rwa [hempty] at hsum
  · rw [Memory.storageInUse_eq_sum h, Memory.storageInUse_eq_sum h', List.map_append, List.sum_append]
    rfl

theorem abandon_storageInUse (h : m.wf) (ha : abandon m k = .ok m') : m'.storageInUse ≤ m.storageInUse := by
  have h' := abandon_wf h ha
  obtain ⟨-, hk, rfl⟩ := abandon_ok_inv ha
  have hsum := Memory.storageInUse_set h h' (Memory.live_iff.mp hk).1
  exact (Nat.le_add_right _ _).trans hsum.le

/-- After Replace0 no more is in use than the sum the storage check compares (R37). -/
theorem replace0_storageInUse (h : m.wf) (hr : replace0 cfg m k = .ok m') :
    m'.storageInUse ≤ m.storageInUse - (m.bank 0).len + (m.bank k).len := by
  have h' := replace0_wf h hr
  obtain ⟨-, -, rfl⟩ := replace0_ok_inv hr
  have hsum := Memory.storageInUse_set h h' (Memory.live_iff.mp (Memory.live_zero h)).1
  change (m.setBank 0 (m.bank k)).storageInUse + _ = _ at hsum
  omega

end storage

theorem overStorage_mono {cfg : Config} {n n' : Nat} (h : overStorage cfg n = false) (hle : n' ≤ n) :
    overStorage cfg n' = false := by
  unfold overStorage at h ⊢
  split
  · rfl
  · simp only [*, decide_eq_false_iff_not, not_lt] at h ⊢
    exact hle.trans h

/-! ## The part of the invariant that speaks of memory -/

/-- Memory in canonical form and within both capacity parameters (R17 to R21). -/
def Memory.Within (cfg : Config) (m : Memory) : Prop :=
  m.wf ∧ m.size ≤ cfg.maxBanks ∧ overStorage cfg m.storageInUse = false

theorem State.inv_iff {s : State} :
    s.Inv ↔ s.cfg.wellFormed = true ∧ s.mem.Within s.cfg ∧ s.runAgrees = true := by
  simp only [State.Inv, Memory.Within, and_assoc]

section within
variable {cfg : Config} {m m' : Memory} {k n j v : Word}

theorem memWrite_within (h : m.Within cfg) (hw : memWrite m k j v = .ok m') : m'.Within cfg := by
  obtain ⟨hwf, hN, hstorage⟩ := h
  exact ⟨memWrite_wf hwf hw, (memWrite_size hw).trans_le hN,
    overStorage_mono hstorage (memWrite_storageInUse hwf hw).le⟩

theorem alloc_within (hcfg : cfg.wellFormed = true) (h : m.Within cfg) (ha : alloc cfg m n = .ok (k, m')) :
    m'.Within cfg := by
  obtain ⟨hwf, hN, -⟩ := h
  have hwf' := alloc_wf hwf hcfg hN ha
  have hroom : overStorage cfg (m.storageInUse + n.toNat) = false := by
    by_contra hover
    simp [alloc_storageExhausted (Bool.eq_true_of_not_eq_false hover)] at ha
  refine ⟨hwf', ?_, by rwa [alloc_storageInUse hwf hwf' ha]⟩
  rcases alloc_size ha with hsame | ⟨hne, hgrown⟩
  · exact hsame.trans_le hN
  · omega

theorem abandon_within (h : m.Within cfg) (ha : abandon m k = .ok m') : m'.Within cfg := by
  obtain ⟨hwf, hN, hstorage⟩ := h
  exact ⟨abandon_wf hwf ha, (abandon_size ha).trans_le hN, overStorage_mono hstorage (abandon_storageInUse hwf ha)⟩

theorem replace0_within (h : m.Within cfg) (hr : replace0 cfg m k = .ok m') : m'.Within cfg := by
  obtain ⟨hwf, hN, -⟩ := h
  obtain ⟨-, hroom, -⟩ := replace0_ok_inv hr
  exact ⟨replace0_wf hwf hr, (replace0_size hr).trans_le hN, overStorage_mono hroom (replace0_storageInUse hwf hr)⟩

end within

/-! ## Arms, steps and transactions -/

theorem State.runAgrees_of_running {s : State} (hrun : s.run = .running) : s.runAgrees = true := by
  rw [State.runAgrees, hrun]

/-- A raised fault is the run state's and the result's at once (R80). -/
theorem State.raise_runAgrees (s : State) (f : Fault) (pos : Word) (word : Option Word) :
    (s.raise f pos word).runAgrees = true := by
  simp [State.runAgrees]

theorem State.raise_inv {s : State} (h : s.Inv) (f : Fault) (pos : Word) (word : Option Word) :
    (s.raise f pos word).Inv := by
  obtain ⟨hcfg, hmem, -⟩ := State.inv_iff.mp h
  exact State.inv_iff.mpr ⟨hcfg, hmem, s.raise_runAgrees f pos word⟩

/-- Every effect of an arm keeps the invariant of a running state. -/
theorem ArmEffect.inv {s t : State} (he : ArmEffect s t) (h : s.Inv) (hrun : s.run = .running) : t.Inv := by
  obtain ⟨hcfg, hmem, -⟩ := State.inv_iff.mp h
  have hrunning {t : State} (hcfg' : t.cfg = s.cfg) (hmem' : t.mem.Within s.cfg) (hrun' : t.run = s.run) : t.Inv :=
    State.inv_iff.mpr ⟨hcfg' ▸ hcfg, hcfg' ▸ hmem', State.runAgrees_of_running (hrun'.trans hrun)⟩
  cases he with
  | nothing => exact h
  | register a v => exact hrunning rfl hmem rfl
  | fault f => exact State.raise_inv h f _ _
  | written hw => exact hrunning rfl (memWrite_within hmem hw) rfl
  | allocated b ha => exact hrunning rfl (alloc_within hcfg hmem ha) rfl
  | abandoned ha => exact hrunning rfl (abandon_within hmem ha) rfl
  | jumped p => exact hrunning rfl hmem rfl
  | loaded p hr => exact hrunning rfl (replace0_within hmem hr) rfl
  | halted => exact State.inv_iff.mpr ⟨hcfg, hmem, by simp [State.runAgrees]⟩
  | output byte => exact hrunning rfl hmem rfl
  | inputNeeded c => exact State.inv_iff.mpr ⟨hcfg, hmem, by simp [State.runAgrees]⟩

theorem State.advance_inv {s : State} (h : s.Inv) (hrun : s.run = .running) : s.advance.Inv := by
  obtain ⟨hcfg, hmem, -⟩ := State.inv_iff.mp h
  exact State.inv_iff.mpr ⟨hcfg, hmem, State.runAgrees_of_running hrun⟩

theorem step_inv {s t : State} (h : s.Inv) (hstep : step s = .next t) : t.Inv := by
  obtain ⟨hrun, ⟨-, rfl⟩ | ⟨w, -, ⟨-, -, rfl⟩ | ⟨i, -, hexec⟩⟩⟩ := step_next_cases hstep
  · exact State.raise_inv h _ _ _
  · exact State.raise_inv h _ _ _
  · exact (exec_next_effect hexec).inv (State.advance_inv h hrun) hrun

/-- A reset that is accepted has the invariant: one bank, as long as the image (R96, R97, log 8). -/
theorem resetState_inv {cfg : Config} {image : List Word} (issued : Nat) (hcfg : cfg.wellFormed = true)
    (hlen : image.length ≤ 4294967295) (hfits : overStorage cfg image.length = false) :
    (resetState cfg image issued).Inv := by
  have hwf := resetState_mem_wf cfg issued hlen
  have hstorage : (resetState cfg image issued).mem.storageInUse = image.length :=
    (Memory.storageInUse_eq_sum hwf).trans (Nat.add_zero _)
  have hone : 1 < cfg.maxBanks := by
    simp only [Config.wellFormed, Bool.and_eq_true, decide_eq_true_eq] at hcfg
    exact hcfg.1
  exact State.inv_iff.mpr ⟨hcfg, ⟨hwf, hone.le, hstorage ▸ hfits⟩, rfl⟩

theorem provideInput_inv {token : Token} {v : Option Byte} {s t : State} (h : s.Inv)
    (hp : provideInput token v s = .next t) : t.Inv := by
  obtain ⟨hcfg, hmem, -⟩ := State.inv_iff.mp h
  obtain ⟨-, rfl⟩ := provideInput_next_cases hp
  exact State.inv_iff.mpr ⟨hcfg, hmem, rfl⟩

/-- All that the first reset of a block can do when it answers (R96, R97, R99). -/
theorem transact_beforeReset_next_cases {cfg : Config} {tr : Transaction} {b : Block}
    (h : transact (.beforeReset cfg) tr = .next b) :
    ∃ image, tr = .reset image ∧ image.length ≤ 4294967295 ∧ overStorage cfg image.length = false ∧
      b = .up (resetState cfg image) := by
  cases tr with
  | reset image =>
    obtain ⟨t, hreset, rfl⟩ := upOutcome_next_cases h
    rcases resetWith_cases cfg image 0 with ⟨hlen, hfits, he⟩ | ⟨-, -, he⟩ | ⟨-, he⟩ <;> rw [he] at hreset <;>
      cases hreset
    exact ⟨image, rfl, hlen, hfits, rfl⟩
  | step => cases h
  | provideInput token v => cases h

theorem transact_inv {b b' : Block} {tr : Transaction} (h : b.Inv) (htr : transact b tr = .next b') : b'.Inv := by
  cases b with
  | beforeReset cfg =>
    obtain ⟨image, -, hlen, hfits, rfl⟩ := transact_beforeReset_next_cases htr
    exact resetState_inv 0 h hlen hfits
  | up s =>
    obtain ⟨t, rfl, ⟨image, -, hreset⟩ | ⟨-, hstep⟩ | ⟨token, v, -, hprovide⟩⟩ := transact_up_next_cases htr
    · obtain ⟨hlen, hfits, rfl⟩ := hostReset_next_cases hreset
      exact resetState_inv s.issued (State.inv_iff.mp h).1 hlen hfits
    · exact step_inv h hstep
    · exact provideInput_inv h hprovide

/-- What every transaction keeps, every sequence of transactions keeps. -/
theorem transactAll_induction {P : Block → Prop} (hkeep : ∀ b tr b', P b → transact b tr = .next b' → P b')
    {trs : List Transaction} {b b' : Block} (h : P b) (hall : transactAll b trs = .next b') : P b' := by
  induction trs generalizing b with
  | nil =>
    cases hall
    exact h
  | cons tr rest ih =>
    rw [transactAll] at hall
    cases htr : transact b tr with
    | next b1 =>
      rw [htr] at hall
      exact ih (hkeep b tr b1 h htr) hall
    | fault f => rw [htr] at hall; cases hall
    | refused r => rw [htr] at hall; cases hall

end Sys2Proof.Machine

namespace Sys2Proof.Claims

open Sys2Proof.Machine

/-- Settles O50: the reset state is that of the reset with the empty image and unbounded parameters. -/
theorem resetStateHasTheInvariant : Obligations.ResetStateHasTheInvariant :=
  resetState_inv (cfg := Config.unbounded) (image := []) 0 (by decide) (by decide) rfl

/-- Settles O51: a step raises a fault or runs an arm, and each effect of an arm keeps the invariant. -/
theorem stepKeepsTheInvariant : Obligations.StepKeepsTheInvariant := fun _ _ => step_inv

/-- Settles O52, by induction over the transactions, each of which keeps the invariant. -/
theorem everyTransactionRunKeepsTheInvariant : Obligations.EveryTransactionRunKeepsTheInvariant := fun _ _ _ =>
  transactAll_induction fun _ _ _ => transact_inv

end Sys2Proof.Claims
end

section
/-! Proofs: faults. Which operation's fault an arm raises (R82, R83), what a faulting step is (R80, R81), and O10, O11,
O12 and O27. -/

namespace Sys2Proof.Machine

open Sys2Proof.Claims (MayRaise)

/-! ## The faults of the operations -/

section operations
variable {cfg : Config} {m : Memory} {k j n v : Word} {f : Fault}

theorem memRead_error (h : memRead m k j = .error f) : f = .bankNotLive ∨ f = .offsetOutOfRange := by
  rcases memRead_cases m k j with ⟨-, -, he⟩ | ⟨-, -, he⟩ | ⟨-, he⟩ <;> rw [he] at h <;> cases h
  · exact .inr rfl
  · exact .inl rfl

theorem memWrite_error (h : memWrite m k j v = .error f) : f = .bankNotLive ∨ f = .offsetOutOfRange := by
  rcases memWrite_cases m k j v with ⟨-, -, he⟩ | ⟨-, -, he⟩ | ⟨-, he⟩ <;> rw [he] at h <;> cases h
  · exact .inr rfl
  · exact .inl rfl

/-- Alloc's faults, each with the capacity that is reached (R35, R84). -/
theorem alloc_error (h : alloc cfg m n = .error f) :
    (f = .storageExhausted ∧ overStorage cfg (m.storageInUse + n.toNat) = true) ∨
      (f = .bankIdsExhausted ∧ m.free = [] ∧ m.size = cfg.maxBanks) := by
  rcases alloc_cases cfg m n with ⟨hover, he⟩ | ⟨-, hfree, hfull, he⟩ | ⟨-, -, -, he⟩ | ⟨-, k, rest, -, he⟩ <;>
    rw [he] at h <;> cases h
  · exact .inl ⟨rfl, hover⟩
  · exact .inr ⟨rfl, hfree, hfull⟩

theorem abandon_error (h : abandon m k = .error f) : f = .abandonBank0 ∨ f = .abandonNotLive := by
  rcases abandon_cases m k with ⟨-, he⟩ | ⟨-, -, he⟩ | ⟨-, -, he⟩ <;> rw [he] at h <;> cases h
  · exact .inl rfl
  · exact .inr rfl

/-- Replace0's faults, the second with the storage that is exceeded (R37, R84). -/
theorem replace0_error (h : replace0 cfg m k = .error f) :
    f = .bankNotLive ∨
      (f = .storageExhausted ∧ overStorage cfg (m.storageInUse - (m.bank 0).len + (m.bank k).len) = true) := by
  rcases replace0_cases cfg m k with ⟨-, -, he⟩ | ⟨-, hover, he⟩ | ⟨-, he⟩ <;> rw [he] at h <;> cases h
  · exact .inr ⟨rfl, hover⟩
  · exact .inl rfl

end operations

/-! ## The fault of an arm -/

/-- The operation of the instruction's arm meets this fault in this state. -/
def ArmFault : Instr → State → Fault → Prop
  | .div _ _ c, s, f => s.reg c = 0 ∧ f = .divideByZero
  | .aidx _ b c, s, f => memRead s.mem (s.reg b) (s.reg c) = .error f
  | .aamd a b c, s, f => memWrite s.mem (s.reg a) (s.reg b) (s.reg c) = .error f
  | .alloc _ c, s, f => alloc s.cfg s.mem (s.reg c) = .error f
  | .aband c, s, f => abandon s.mem (s.reg c) = .error f
  | .loadp b _, s, f => s.reg b ≠ 0 ∧ replace0 s.cfg s.mem (s.reg b) = .error f
  | _, _, _ => False

/-- An arm whose continuation leaves the run state alone is faulted by its operation only. -/
theorem State.orRaise_faulted {α : Type} {s : State} {r : Except Fault α} {next : α → State} {f : Fault} {pos : Word}
    {w : Option Word} (hrun : s.run = .running) (hfault : (s.orRaise r next).run = .faulted f pos w)
    (hnext : ∀ v, (next v).run = s.run) : r = .error f := by
  cases r with
  | ok v => simp [hnext, hrun] at hfault
  | error f' =>
    obtain ⟨rfl, -, -⟩ := RunState.faulted.inj hfault
    rfl

/-- An arm that ends in `Faulted` met its operation's fault. -/
theorem exec_faulted {i : Instr} {s t : State} {f : Fault} {pos : Word} {w : Option Word} (hrun : s.run = .running)
    (hexec : exec i s = .next t) (hfault : t.run = .faulted f pos w) : ArmFault i s f := by
  have hkept {t' : State} (he : exec i s = .next t') (hrun' : t'.run = s.run) : ArmFault i s f := by
    obtain rfl := Host.Outcome.next.inj (hexec.symm.trans he)
    simp [hrun', hrun] at hfault
  cases i with
  | cmov a b c =>
    by_cases hc : s.reg c = 0
    · exact hkept (exec_cmov_of_eq_zero hc) rfl
    · exact hkept (exec_cmov_of_ne_zero hc) rfl
  | add a b c => exact hkept exec_add rfl
  | mul a b c => exact hkept exec_mul rfl
  | nand a b c => exact hkept exec_nand rfl
  | ortho a imm => exact hkept exec_ortho rfl
  | out c => exact hkept rfl rfl
  | halt => cases hexec; cases hfault
  | inp c => cases hexec; cases hfault
  | div a b c =>
    by_cases hc : s.reg c = 0
    · obtain rfl := Host.Outcome.next.inj (hexec.symm.trans (exec_div_of_eq_zero hc))
      obtain ⟨rfl, -, -⟩ := RunState.faulted.inj hfault
      exact ⟨hc, rfl⟩
    · exact hkept (exec_div_of_ne_zero hc) rfl
  | aidx a b c => cases hexec; exact State.orRaise_faulted hrun hfault fun _ => rfl
  | aamd a b c => cases hexec; exact State.orRaise_faulted hrun hfault fun _ => rfl
  | alloc b c => cases hexec; exact State.orRaise_faulted hrun hfault fun _ => rfl
  | aband c => cases hexec; exact State.orRaise_faulted hrun hfault fun _ => rfl
  | loadp b c =>
    by_cases hb : s.reg b = 0
    · exact hkept (exec_loadp_of_eq_zero hb) rfl
    · obtain rfl := Host.Outcome.next.inj (hexec.symm.trans (exec_loadp_of_ne_zero hb))
      exact ⟨hb, State.orRaise_faulted hrun hfault fun _ => rfl⟩

/-- The fault an arm meets is one that R82 lists for its instruction. -/
theorem ArmFault.mayRaise {i : Instr} {s : State} {f : Fault} (h : ArmFault i s f) : MayRaise i f := by
  cases i with
  | div a b c => exact h.2
  | aidx a b c => exact memRead_error h
  | aamd a b c => exact memWrite_error h
  | alloc b c => exact (alloc_error h).imp And.left And.left
  | aband c => exact abandon_error h
  | loadp b c => exact (replace0_error h.2).imp_right And.left
  | _ => exact h.elim

/-- Only a capacity that is exceeded raises STORAGE_EXHAUSTED (R84). -/
theorem ArmFault.overStorage_of_storageExhausted {i : Instr} {s : State} (h : ArmFault i s .storageExhausted) :
    ∃ words, overStorage s.cfg words = true := by
  cases i with
  | alloc b c =>
    rcases alloc_error h with ⟨-, hover⟩ | ⟨hne, -⟩
    · exact ⟨_, hover⟩
    · cases hne
  | loadp b c =>
    rcases replace0_error h.2 with hne | ⟨-, hover⟩
    · cases hne
    · exact ⟨_, hover⟩
  | _ => simpa [MayRaise] using h.mayRaise

/-- Only a full table with no free id raises BANK_IDS_EXHAUSTED (R84). -/
theorem ArmFault.full_of_bankIdsExhausted {i : Instr} {s : State} (h : ArmFault i s .bankIdsExhausted) :
    s.mem.free = [] ∧ s.mem.size = s.cfg.maxBanks := by
  cases i with
  | alloc b c =>
    rcases alloc_error h with ⟨hne, -⟩ | ⟨-, hfull⟩
    · cases hne
    · exact hfull
  | _ => simpa [MayRaise] using h.mayRaise

/-! ## A step that faults -/

/-- The one effect of an arm that ends in `Faulted` is the raised fault. -/
theorem ArmEffect.eq_raiseInArm {s t : State} {f : Fault} {pos : Word} {w : Option Word} (he : ArmEffect s t)
    (hrun : s.run = .running) (hfault : t.run = .faulted f pos w) : t = s.raiseInArm f := by
  cases he with
  | fault f' =>
    obtain ⟨rfl, -, -⟩ := RunState.faulted.inj hfault
    rfl
  | halted => cases hfault
  | inputNeeded c => cases hfault
  | _ => exact absurd (hrun.symm.trans hfault) (by simp)

/-- All that a step which ends in `Faulted` can be: the fetch's fault, the decoder's, or the one its arm met (R83). -/
theorem step_faulted_cases {s t : State} {f : Fault} {pos : Word} {w : Option Word} (hstep : step s = .next t)
    (hfault : t.run = .faulted f pos w) :
    (fetch s.mem s.finger = .error .fetchOutOfRange ∧ f = .fetchOutOfRange ∧ t = s.raise f s.finger none) ∨
      ∃ x, fetch s.mem s.finger = .ok x ∧
        ((∃ e, decode x = .error e ∧ f = .invalidOpcode ∧ t = s.raise f s.finger (some x)) ∨
          ∃ i, decode x = .ok i ∧ ArmFault i s.advance f ∧ t = s.advance.raiseInArm f) := by
  obtain ⟨hrun, ⟨hlen, rfl⟩ | ⟨x, hfetch, ⟨e, herror, rfl⟩ | ⟨i, hok, hexec⟩⟩⟩ := step_next_cases hstep
  · obtain ⟨rfl, -, -⟩ := RunState.faulted.inj hfault
    exact .inl ⟨fetch_outOfRange hlen, rfl, rfl⟩
  · obtain ⟨rfl, -, -⟩ := RunState.faulted.inj hfault
    exact .inr ⟨x, hfetch, .inl ⟨e, herror, rfl, rfl⟩⟩
  · exact .inr ⟨x, hfetch, .inr ⟨i, hok, exec_faulted hrun hexec hfault,
      (exec_next_effect hexec).eq_raiseInArm hrun hfault⟩⟩

/-! ## The unbounded parameters -/

theorem overStorage_unbounded (words : Nat) : overStorage Config.unbounded words = false := rfl

/-- In a full table of 2^32 slots with no free id every Word is a live id (R22). -/
theorem Memory.live_of_full {m : Memory} (hfree : m.free = []) (hfull : m.size = 4294967296) (k : Word) :
    m.live k = true :=
  Memory.live_iff.mpr ⟨k.isLt.trans_eq hfull.symm, hfree ▸ List.not_mem_nil⟩

end Sys2Proof.Machine

namespace Sys2Proof.Claims

open Sys2Proof.Machine

/-- Settles O10: in each of the three cases the state is the raised one, whose fields are read off. -/
theorem faultsArePrecise : Obligations.FaultsArePrecise := by
  intro s t f pos w hstep hfault
  have hrefused : step t = .refused .stepAfterFault := step_of_faulted hfault
  rcases step_faulted_cases hstep hfault with
    ⟨hfetch, -, rfl⟩ | ⟨x, hfetch, ⟨e, hdecode, -, rfl⟩ | ⟨i, hdecode, -, rfl⟩⟩
  · obtain ⟨-, rfl, rfl⟩ := RunState.faulted.inj hfault
    exact ⟨rfl, by rw [hfetch]; rfl, rfl, rfl, fun _ => rfl, rfl, rfl, rfl, fun _ => rfl,
      fun _ _ hok => by simp [hfetch] at hok, hrefused⟩
  · obtain ⟨-, rfl, rfl⟩ := RunState.faulted.inj hfault
    refine ⟨rfl, by rw [hfetch]; rfl, rfl, rfl, fun _ => rfl, rfl, rfl, rfl, fun _ => rfl, fun y i hy hi => ?_,
      hrefused⟩
    obtain rfl := Except.ok.inj (hfetch.symm.trans hy)
    simp [hdecode] at hi
  · obtain ⟨-, rfl, rfl⟩ := RunState.faulted.inj hfault
    exact ⟨s.advance_stepPos, s.advance_stepWord, rfl, rfl, fun _ => rfl, rfl, rfl, rfl,
      fun hnone => absurd hdecode (hnone x i hfetch), fun _ _ _ _ => rfl, hrefused⟩

/-- Settles O11: the three cases of a faulting step, the arm's fault being one of its instruction's. -/
theorem faultsComeOnlyFromTheListedCauses : Obligations.FaultsComeOnlyFromTheListedCauses := by
  intro s t f pos w hstep hfault
  rcases step_faulted_cases hstep hfault with
    ⟨hfetch, hf, -⟩ | ⟨x, hfetch, ⟨e, hdecode, hf, -⟩ | ⟨i, hdecode, harm, -⟩⟩
  · exact .inl ⟨hfetch, hf⟩
  · refine .inr ⟨x, hfetch, .inl ⟨?_, hf⟩⟩
    by_contra hlegal
    obtain ⟨i, hok, -⟩ := decode_legal (w := x) (by omega)
    simp [hdecode] at hok
  · exact .inr ⟨x, hfetch, .inr ⟨i, hdecode, harm.mayRaise⟩⟩

/-- Settles O12: the table's rows. -/
theorem faultCodesAreTheTable : Obligations.FaultCodesAreTheTable :=
  ⟨⟨rfl, rfl⟩, ⟨rfl, rfl⟩, ⟨rfl, rfl⟩, ⟨rfl, rfl⟩, ⟨rfl, rfl⟩, ⟨rfl, rfl⟩, ⟨rfl, rfl⟩, ⟨rfl, rfl⟩, rfl, rfl⟩

/-- Settles O27: neither cause is the fetch's or the decoder's; in an arm, each needs the capacity it is named for. -/
theorem unboundedBlockNeverExhaustsStorage : Obligations.UnboundedBlockNeverExhaustsStorage := by
  intro s t f pos w _ hcfg hstep hfault
  rcases step_faulted_cases hstep hfault with
    ⟨-, rfl, -⟩ | ⟨x, -, ⟨-, -, rfl, -⟩ | ⟨i, -, harm, -⟩⟩
  · simp
  · simp
  · constructor
    · rintro rfl
      obtain ⟨words, hover⟩ := harm.overStorage_of_storageExhausted
      simp [hcfg, overStorage_unbounded] at hover
    · rintro rfl
      obtain ⟨hfree, hfull⟩ := harm.full_of_bankIdsExhausted
      exact Memory.live_of_full hfree (hfull.trans (congrArg Config.maxBanks hcfg))

end Sys2Proof.Claims
end

section
/-! Proofs: the step. The finger, the registers, the table and the output bytes through an arm and a step (R10, R15,
R17, R76), runs of many steps (R95, R105), and O7, O13 to O17, O31 and O48. -/

namespace Sys2Proof.Machine

/-! ## The finger -/

/-- A fetch that gives a Word was below the end of bank 0 (R38). -/
theorem fetch_ok_inv {m : Memory} {f w : Word} (h : fetch m f = .ok w) : f.toNat < (m.bank 0).len := by
  rcases fetch_cases m f with ⟨hlt, -⟩ | ⟨-, he⟩
  · exact hlt
  · simp [he] at h

/-- A bank operation's arm moves the finger only if its continuation does. -/
theorem State.orRaise_finger {α : Type} {s : State} {r : Except Fault α} {next : α → State}
    (hnext : ∀ v, (next v).finger = s.finger) : (s.orRaise r next).finger = s.finger := by
  cases r with
  | ok v => exact hnext v
  | error f => rfl

theorem aluToReg_finger (op : AluOp) (a b c : RegIdx) (s : State) : (aluToReg op a b c s).finger = s.finger := by
  rcases aluToReg_cases op a b c s with ⟨v, -, he⟩ | ⟨-, he⟩ <;> rw [he]
  · exact s.setReg_finger a v
  · exact s.raiseInArm_finger _

/-- LoadProgram jumps to x[c], but for the fault of its Replace0 (R74). -/
theorem exec_loadp_finger {b c : RegIdx} {s t : State} (h : exec (.loadp b c) s = .next t) :
    t.finger = s.finger ∨ (t.run = s.run ∧ t.finger = s.reg c) := by
  by_cases hb : s.reg b = 0
  · obtain rfl := Host.Outcome.next.inj (h.symm.trans (exec_loadp_of_eq_zero hb))
    exact .inr ⟨rfl, rfl⟩
  · obtain rfl := Host.Outcome.next.inj (h.symm.trans (exec_loadp_of_ne_zero hb))
    cases replace0 s.cfg s.mem (s.reg b) with
    | ok m => exact .inr ⟨rfl, rfl⟩
    | error f => exact .inl rfl

/-- Every arm but LoadProgram's leaves the advanced finger as it is (R15). -/
theorem exec_finger {i : Instr} {s t : State} (h : exec i s = .next t) :
    t.finger = s.finger ∨ ∃ b c, i = .loadp b c ∧ t.run = s.run ∧ t.finger = s.reg c := by
  cases i with
  | loadp b c => exact (exec_loadp_finger h).imp_right fun hjump => ⟨b, c, rfl, hjump⟩
  | cmov a b c =>
    by_cases hc : s.reg c = 0
    · obtain rfl := Host.Outcome.next.inj (h.symm.trans (exec_cmov_of_eq_zero hc))
      exact .inl rfl
    · obtain rfl := Host.Outcome.next.inj (h.symm.trans (exec_cmov_of_ne_zero hc))
      exact .inl rfl
  | add a b c => cases h; exact .inl (aluToReg_finger _ _ _ _ _)
  | mul a b c => cases h; exact .inl (aluToReg_finger _ _ _ _ _)
  | div a b c => cases h; exact .inl (aluToReg_finger _ _ _ _ _)
  | nand a b c => cases h; exact .inl (aluToReg_finger _ _ _ _ _)
  | aidx a b c => cases h; exact .inl (State.orRaise_finger fun _ => rfl)
  | aamd a b c => cases h; exact .inl (State.orRaise_finger fun _ => rfl)
  | alloc b c => cases h; exact .inl (State.orRaise_finger fun _ => rfl)
  | aband c => cases h; exact .inl (State.orRaise_finger fun _ => rfl)
  | halt => cases h; exact .inl rfl
  | out c => cases h; exact .inl rfl
  | inp c => cases h; exact .inl rfl
  | ortho a imm => cases h; exact .inl rfl

/-- A step that fetched a Word which decodes is the arm of its instruction in the advanced state (R61). -/
theorem exec_of_step_next {s t : State} {w : Word} {i : Instr} (hstep : step s = .next t)
    (hfetch : fetch s.mem s.finger = .ok w) (hdecode : decode w = .ok i) :
    s.run = .running ∧ exec i s.advance = .next t := by
  obtain ⟨hrun, -⟩ := step_next_cases hstep
  exact ⟨hrun, (step_of_fetch_decode hrun hfetch hdecode).symm.trans hstep⟩

/-! ## Registers, parameters and the table -/

/-- What one arm may change of the registers and the table: one register, one more slot; never the parameters (R6,
R10). -/
def OneWrite (s t : State) : Prop :=
  (∃ a, ∀ r, r ≠ a → t.reg r = s.reg r) ∧ t.cfg = s.cfg ∧ s.mem.size ≤ t.mem.size ∧ t.mem.size ≤ s.mem.size + 1

/-- A change that leaves the registers alone may touch any one of them. -/
theorem OneWrite.of_regs_eq {s t : State} (hregs : t.regs = s.regs) (hcfg : t.cfg = s.cfg)
    (hsize : t.mem.size = s.mem.size) : OneWrite s t :=
  ⟨⟨0, fun r _ => State.reg_congr hregs r⟩, hcfg, hsize.ge, by omega⟩

theorem ArmEffect.oneWrite {s t : State} (he : ArmEffect s t) : OneWrite s t := by
  cases he with
  | register a v => exact ⟨⟨a, fun r hr => s.reg_setReg_other a r v hr⟩, rfl, le_rfl, Nat.le_succ _⟩
  | allocated b ha =>
    refine ⟨⟨b, fun r hr => State.reg_setReg_other _ b r _ hr⟩, rfl, ?_⟩
    rcases alloc_size ha with hsame | ⟨-, hgrown⟩
    · exact ⟨hsame.ge, hsame.le.trans (Nat.le_succ _)⟩
    · exact ⟨(Nat.le_succ _).trans hgrown.ge, hgrown.le⟩
  | nothing => exact .of_regs_eq rfl rfl rfl
  | fault f => exact .of_regs_eq rfl rfl rfl
  | written hw => exact .of_regs_eq rfl rfl (memWrite_size hw)
  | abandoned ha => exact .of_regs_eq rfl rfl (abandon_size ha)
  | jumped p => exact .of_regs_eq rfl rfl rfl
  | loaded p hr => exact .of_regs_eq rfl rfl (replace0_size hr)
  | halted => exact .of_regs_eq rfl rfl rfl
  | output byte => exact .of_regs_eq rfl rfl rfl
  | inputNeeded c => exact .of_regs_eq rfl rfl rfl

/-! ## Output bytes -/

/-- An arm that starts with the result Continue records the byte it emits, if any (R76). -/
theorem ArmEffect.outputs {s t : State} (he : ArmEffect s t) (hresult : s.result = some .continues) :
    t.outputs = s.outputs ++ Claims.emitted t.result := by
  have hsilent {t : State} (hout : t.outputs = s.outputs) (hres : t.result = s.result) :
      t.outputs = s.outputs ++ Claims.emitted t.result := by
    rw [hout, hres, hresult]
    exact (List.append_nil _).symm
  cases he with
  | fault f => exact (List.append_nil _).symm
  | halted => exact (List.append_nil _).symm
  | inputNeeded c => exact (List.append_nil _).symm
  | output byte => rfl
  | _ => exact hsilent rfl rfl

theorem step_outputs {s t : State} (h : step s = .next t) : t.outputs = s.outputs ++ Claims.emitted t.result := by
  obtain ⟨-, ⟨-, rfl⟩ | ⟨w, -, ⟨-, -, rfl⟩ | ⟨i, -, hexec⟩⟩⟩ := step_next_cases h
  · exact (List.append_nil _).symm
  · exact (List.append_nil _).symm
  · exact (exec_next_effect hexec).outputs s.advance_result

theorem exec_out {c : RegIdx} {s : State} :
    exec (.out c) s = .next { s with
      result := some (.output (outputByte (s.reg c))), outputs := s.outputs ++ [outputByte (s.reg c)] } := rfl

/-- The byte of an Output is the low eight bits (R76, conflict C2). -/
theorem outputByte_toNat (v : Word) : (outputByte v).toNat = v.toNat % 256 :=
  BitVec.extractLsb'_toNat 0 8 v

/-! ## Runs -/

theorem run_succ_of_step {n : Nat} {s u : State} (h : step s = .next u) :
    Host.Core.run Sys2Proof.core (n + 1) s = Host.Core.run Sys2Proof.core n u := by
  simp [Host.Core.run, Sys2Proof.core, h]

/-- A run of n + 1 steps is a step and a run of n from the state it answers. -/
theorem run_succ_next_cases {n : Nat} {s t : State} (h : Host.Core.run Sys2Proof.core (n + 1) s = .next t) :
    ∃ u, step s = .next u ∧ Host.Core.run Sys2Proof.core n u = .next t := by
  cases hstep : step s with
  | next u => exact ⟨u, rfl, (run_succ_of_step hstep).symm.trans h⟩
  | fault f => simp [Host.Core.run, Sys2Proof.core, hstep] at h
  | refused r => simp [Host.Core.run, Sys2Proof.core, hstep] at h

theorem run_outputs {n : Nat} {s t : State} (h : Host.Core.run Sys2Proof.core n s = .next t) :
    ∃ bytes, t.outputs = s.outputs ++ bytes := by
  induction n generalizing s with
  | zero =>
    cases h
    exact ⟨[], (List.append_nil _).symm⟩
  | succ n ih =>
    obtain ⟨u, hstep, hrest⟩ := run_succ_next_cases h
    obtain ⟨bytes, hbytes⟩ := ih hrest
    exact ⟨Claims.emitted u.result ++ bytes, by rw [hbytes, step_outputs hstep, List.append_assoc]⟩

/-! ## LoadProgram -/

/-- The block waits at a LoadProgram with x[b] = 0 whose target is that LoadProgram (R95). -/
def AtSelfJump (b c : RegIdx) (s : State) : Prop :=
  s.run = .running ∧ (∃ w, fetch s.mem s.finger = .ok w ∧ decode w = .ok (.loadp b c)) ∧ s.reg b = 0 ∧
    s.reg c = s.finger

/-- A self-jump's step changes the last result alone, so that it is a self-jump again. -/
theorem AtSelfJump.step_eq {b c : RegIdx} {s : State} (h : AtSelfJump b c s) :
    step s = .next { s with result := some .continues } := by
  obtain ⟨hrun, ⟨w, hfetch, hdecode⟩, hb, hc⟩ := h
  rw [step_of_fetch_decode hrun hfetch hdecode, exec_loadp_of_eq_zero ((s.advance_reg b).trans hb), State.advance_reg,
    hc]
  rfl

/-- However many steps are taken at a self-jump, nothing but the last result changes. -/
theorem AtSelfJump.run_eq {b c : RegIdx} {s : State} (h : AtSelfJump b c s) (n : Nat) :
    ∃ result, Host.Core.run Sys2Proof.core n s = .next { s with result := result } := by
  induction n generalizing s with
  | zero => exact ⟨s.result, rfl⟩
  | succ n ih =>
    obtain ⟨result, hrest⟩ := ih (s := { s with result := some .continues }) h
    exact ⟨result, (run_succ_of_step h.step_eq).trans hrest⟩

/-- A LoadProgram with x[b] not 0 that raised no fault has copied bank x[b] to bank 0 and jumped (R74). -/
theorem exec_loadp_running {b c : RegIdx} {s t : State} (hwf : s.mem.wf) (hb : s.reg b ≠ 0)
    (h : exec (.loadp b c) s = .next t) (hrun : t.run = .running) :
    t.finger = s.reg c ∧ t.mem.bank 0 = s.mem.bank (s.reg b) := by
  obtain rfl := Host.Outcome.next.inj (h.symm.trans (exec_loadp_of_ne_zero hb))
  cases hr : replace0 s.cfg s.mem (s.reg b) with
  | error f => simp [hr] at hrun
  | ok m =>
    obtain ⟨-, -, rfl⟩ := replace0_ok_inv hr
    exact ⟨rfl, Memory.bank_zero_replaced hwf _⟩

end Sys2Proof.Machine

namespace Sys2Proof.Claims

open Sys2Proof.Machine

/-- Settles O7: fetch, decode, advance, apply. -/
theorem stepRunsTheDecodedInstruction : Obligations.StepRunsTheDecodedInstruction := fun _ _ _ => step_of_fetch_decode

/-- Settles O13: the step is the arm in the advanced state, and of the arms only LoadProgram's moves the finger. -/
theorem onlyLoadProgramMovesTheFinger : Obligations.OnlyLoadProgramMovesTheFinger := by
  intro s t w i hstep hfetch hdecode
  obtain ⟨hrun, hexec⟩ := exec_of_step_next hstep hfetch hdecode
  rcases exec_finger hexec with hstays | ⟨b, c, hi, hrun', hjump⟩
  · exact .inl hstays
  · exact .inr ⟨b, c, hi, hrun'.trans hrun, hjump⟩

/-- Settles O14: the finger is below the length of bank 0, which is at most 2^32 - 1. -/
theorem fingerNeverWraps : Obligations.FingerNeverWraps := by
  intro s w hinv hfetch
  obtain ⟨-, hwf, -⟩ := hinv
  have hlt := fetch_ok_inv hfetch
  obtain ⟨hlen, -⟩ := Bank.wellFormed_iff.mp (Memory.bank_wellFormed hwf 0)
  bv_omega

/-- Settles O15: a fault of fetch or decode writes nothing, an arm one register at most. -/
theorem stepWritesAtMostOneRegister : Obligations.StepWritesAtMostOneRegister := by
  intro s t hstep
  obtain ⟨-, ⟨-, rfl⟩ | ⟨w, -, ⟨-, -, rfl⟩ | ⟨i, -, hexec⟩⟩⟩ := step_next_cases hstep
  · exact OneWrite.of_regs_eq rfl rfl rfl
  · exact OneWrite.of_regs_eq rfl rfl rfl
  · exact (exec_next_effect hexec).oneWrite

/-- Settles O16: a step appends the byte it returns; along a run, by induction on its length, the bytes only grow. -/
theorem outputBytesLeaveInStepOrder : Obligations.OutputBytesLeaveInStepOrder :=
  ⟨fun _ _ => step_outputs, fun _ _ _ => run_outputs⟩

/-- Settles O17, by induction on the number of steps, each of which changes the last result alone. -/
theorem selfJumpNeverEnds : Obligations.SelfJumpNeverEnds := by
  intro s w b c hrun hfetch hdecode hb hc n
  have hself : AtSelfJump b c s := ⟨hrun, ⟨w, hfetch, hdecode⟩, hb, hc⟩
  obtain ⟨result, hn⟩ := hself.run_eq n
  exact ⟨_, hn, hrun, rfl, State.reg_congr rfl, rfl⟩

/-- Settles O31: the arm sets the result and appends its byte, the low eight bits. -/
theorem outputEmitsTheLowByte : Obligations.OutputEmitsTheLowByte :=
  ⟨fun _ hop => decode_standard hop (by decide), fun c s =>
    ⟨_, outputByte (s.reg c), exec_out, outputByte_toNat _, rfl, rfl, rfl, State.reg_congr rfl, rfl, rfl, rfl, rfl⟩⟩

/-- Settles O48: the step has copied the bank and jumped, and the next fetch sees bank 0 alone. -/
theorem loadedProgramIsFetchedNext : Obligations.LoadedProgramIsFetchedNext := by
  intro s t w b c hinv hfetch hdecode hb hstep hrun
  obtain ⟨-, hwf, -⟩ := hinv
  obtain ⟨-, hexec⟩ := exec_of_step_next hstep hfetch hdecode
  obtain ⟨hfinger, hbank⟩ := exec_loadp_running (s := s.advance) hwf hb hexec hrun
  refine ⟨hfinger, ?_⟩
  rw [fetch, hbank, hfinger]
  rfl

end Sys2Proof.Claims
end

section
/-! Proofs: the host's transactions. The resets that are refused or fault at once (R97, R99, R100), when `provide_input`
answers (R78, R92), which transaction leaves a run state (R86, R94), tokens through every transaction (R24, R92), and
O33 to O36, O39, O41, O53 and O54. -/

namespace Sys2Proof.Machine

/-! ## Reset -/

theorem resetWith_imageOverStorage {cfg : Config} {image : List Word} {issued : Nat}
    (hlen : image.length ≤ 4294967295) (hover : overStorage cfg image.length = true) :
    resetWith cfg image issued = .refused .imageOverStorage := by
  rcases resetWith_cases cfg image issued with ⟨-, hfits, -⟩ | ⟨-, -, hrefused⟩ | ⟨hlong, -⟩
  · simp [hover] at hfits
  · exact hrefused
  · omega

theorem overStorage_zero (cfg : Config) : overStorage cfg 0 = false := by
  unfold overStorage
  split
  · rfl
  · exact decide_eq_false (Nat.not_lt_zero _)

/-- The empty image is legal under all parameters (R100). -/
theorem resetWith_nil (cfg : Config) (issued : Nat) :
    resetWith cfg [] issued = .next (resetState cfg [] issued) :=
  hostReset_eq_next (s := resetState cfg [] issued) (Nat.zero_le _) (overStorage_zero cfg)

/-! ## provide_input -/

section provideInput
variable {token : Token} {v : Option Byte} {s : State}

theorem provideInput_of_running (hrun : s.run = .running) : provideInput token v s = .refused .noInputPending := by
  rw [provideInput, hrun]

theorem provideInput_of_awaitingInput (hrun : s.run = .awaitingInput token) :
    provideInput token v s = .next { s.setReg token.reg (inputWord v) with run := .running } := by
  simp [provideInput, hrun]

/-- Without a pending Input of that very token there is no transition (R92). -/
theorem provideInput_refused (hrun : s.run ≠ .awaitingInput token) :
    provideInput token v s = .refused .noInputPending ∨ provideInput token v s = .refused .notThePendingToken := by
  cases hs : s.run with
  | running => exact .inl (provideInput_of_running hs)
  | halted => exact .inl (provideInput_of_halted hs token v)
  | faulted f pos word => exact .inl (provideInput_of_faulted hs token v)
  | awaitingInput pending =>
    have hne : token ≠ pending := fun e => hrun (e ▸ hs)
    exact .inr (by simp [provideInput, hs, hne])

/-- `provide_input` is enabled exactly where its token is pending (R92). -/
theorem provideInput_enabled_iff : (∃ t, provideInput token v s = .next t) ↔ s.run = .awaitingInput token :=
  ⟨fun ⟨_, h⟩ => (provideInput_next_cases h).1, fun hrun => ⟨_, provideInput_of_awaitingInput hrun⟩⟩

end provideInput

/-- A byte is widened with zero bits (R78). -/
theorem inputWord_some_toNat (byte : Byte) : (inputWord (some byte)).toNat = byte.toNat :=
  BitVec.toNat_setWidth_of_le (by decide)

/-! ## Tokens -/

/-- The count of tokens does not fall, and a token that `t` waits for is the one created since `s`, with the serial that
was next (R24). -/
def TokensInOrder (s t : State) : Prop :=
  s.issued ≤ t.issued ∧
    ∀ token, t.run = .awaitingInput token → token.serial = s.issued ∧ t.issued = s.issued + 1

/-- A state that waits for no token needs only the count. -/
theorem TokensInOrder.of_not_waiting {s t : State} (hcount : t.issued = s.issued)
    (hrun : ∀ token, t.run ≠ .awaitingInput token) : TokensInOrder s t :=
  ⟨hcount.ge, fun token hwait => absurd hwait (hrun token)⟩

/-- Of the effects of a running state's arm only an Input creates a token (R77). -/
theorem ArmEffect.tokensInOrder {s t : State} (he : ArmEffect s t) (hrun : s.run = .running) : TokensInOrder s t := by
  cases he with
  | inputNeeded c =>
    refine ⟨Nat.le_succ _, fun token hwait => ?_⟩
    obtain rfl := RunState.awaitingInput.inj hwait
    exact ⟨rfl, rfl⟩
  | fault f => exact .of_not_waiting rfl (by simp)
  | halted => exact .of_not_waiting rfl (by simp)
  | _ => exact .of_not_waiting rfl (by simp [hrun])

theorem step_tokensInOrder {s t : State} (h : step s = .next t) : TokensInOrder s t := by
  obtain ⟨hrun, ⟨-, rfl⟩ | ⟨w, -, ⟨-, -, rfl⟩ | ⟨i, -, hexec⟩⟩⟩ := step_next_cases h
  · exact .of_not_waiting rfl (by simp)
  · exact .of_not_waiting rfl (by simp)
  · exact (exec_next_effect hexec).tokensInOrder hrun

/-- A transaction other than a step creates no token, and ends in a state that waits for none (R24). -/
theorem transact_tokensInOrder {s u : State} {tr : Transaction} (h : transact (.up s) tr = .next (.up u)) :
    TokensInOrder s u ∧ (tr = .step ∨ ∀ token, u.run ≠ .awaitingInput token) := by
  obtain ⟨t, hu, ⟨image, -, hreset⟩ | ⟨rfl, hstep⟩ | ⟨given, v, -, hprovide⟩⟩ := transact_up_next_cases h <;>
    obtain rfl := Block.up.inj hu
  · obtain ⟨-, -, rfl⟩ := hostReset_next_cases hreset
    exact ⟨.of_not_waiting rfl (by simp), .inr (by simp)⟩
  · exact ⟨step_tokensInOrder hstep, .inl rfl⟩
  · obtain ⟨-, rfl⟩ := provideInput_next_cases hprovide
    exact ⟨.of_not_waiting rfl (by simp), .inr (by simp)⟩

/-- The token has been created before and no Input waits for it: it is never accepted again (R92). -/
def Block.Spent (token : Token) : Block → Prop
  | .beforeReset _ => False
  | .up s => token.serial < s.issued ∧ s.run ≠ .awaitingInput token

/-- A spent token stays spent: whichever Input waits afterwards created its own token, with a later serial. -/
theorem transact_spent {token : Token} {b b' : Block} {tr : Transaction} (h : b.Spent token)
    (htr : transact b tr = .next b') : b'.Spent token := by
  cases b with
  | beforeReset cfg => exact h.elim
  | up s =>
    obtain ⟨u, rfl, -⟩ := transact_up_next_cases htr
    obtain ⟨hold, -⟩ := h
    obtain ⟨⟨hcount, hnew⟩, -⟩ := transact_tokensInOrder htr
    refine ⟨hold.trans_le hcount, fun hwait => ?_⟩
    obtain ⟨hserial, -⟩ := hnew token hwait
    omega

/-- In a state with the invariant the pending token is the last one created (R24). -/
theorem State.serial_lt_issued {s : State} {token : Token} (h : s.Inv) (hrun : s.run = .awaitingInput token) :
    token.serial < s.issued := by
  obtain ⟨-, -, hagrees⟩ := State.inv_iff.mp h
  rw [State.runAgrees, hrun] at hagrees
  obtain ⟨-, hissued⟩ := of_decide_eq_true hagrees
  omega

end Sys2Proof.Machine

namespace Sys2Proof.Claims

open Sys2Proof.Machine

/-- Settles O33: with the pending token, a register write and the run state; without it, one of the two refusals. -/
theorem provideInputWritesTheBoundRegister : Obligations.ProvideInputWritesTheBoundRegister := by
  refine ⟨fun token v s hrun => ?_, fun token v s => provideInput_refused⟩
  have hreg : (s.setReg token.reg (inputWord v)).reg token.reg = inputWord v := s.reg_setReg_same _ _
  refine ⟨_, provideInput_of_awaitingInput hrun, rfl, ?_, ?_, rfl, fun r hr => s.reg_setReg_other _ r _ hr, rfl, rfl,
    rfl, rfl, rfl⟩
  · rintro byte rfl
    exact (congrArg BitVec.toNat hreg).trans (inputWord_some_toNat byte)
  · rintro rfl
    exact hreg

/-- Settles O34: enabled where the token is pending, which the answered state, Running, is not. -/
theorem provideInputEnabledOncePerInput : Obligations.ProvideInputEnabledOncePerInput := by
  refine ⟨fun _ _ _ => provideInput_enabled_iff, fun token v v' s t hprovide => ?_⟩
  obtain ⟨-, rfl⟩ := provideInput_next_cases hprovide
  exact provideInput_of_running rfl

/-- Settles O35: a step needs `Running`, and `provide_input` the wait for its own token. -/
theorem onlyResetLeavesATerminalState : Obligations.OnlyResetLeavesATerminalState := by
  intro s tr b htr
  obtain ⟨t, -, ⟨image, rfl, -⟩ | ⟨-, hstep⟩ | ⟨given, v, rfl, hprovide⟩⟩ := transact_up_next_cases htr
  · exact ⟨fun _ => ⟨image, rfl⟩, fun _ _ _ _ => ⟨image, rfl⟩, fun _ _ => .inl ⟨image, rfl⟩⟩
  · obtain ⟨hrun, -⟩ := step_next_cases hstep
    simp [hrun]
  · obtain ⟨hrun, -⟩ := provideInput_next_cases hprovide
    refine ⟨fun h => by simp [hrun] at h, fun _ _ _ h => by simp [hrun] at h, fun token hwait => ?_⟩
    obtain rfl := RunState.awaitingInput.inj (hrun.symm.trans hwait)
    exact .inr ⟨v, rfl⟩

/-- Settles O36: each transaction but the reset is refused by name. -/
theorem onlyResetIsEnabledBeforeTheFirst : Obligations.OnlyResetIsEnabledBeforeTheFirst := by
  intro cfg tr hreset
  cases tr with
  | reset image => exact absurd rfl (hreset image)
  | step => rfl
  | provideInput token v => rfl

/-- Settles O39: the length check passes and the storage check refuses. -/
theorem imageOverStorageIsRefused : Obligations.ImageOverStorageIsRefused := fun _ _ => resetWith_imageOverStorage

/-- Settles O41: bank 0 is empty after the reset, so the fetch at 0 is past its end. -/
theorem emptyImageFaultsAtTheFirstFetch : Obligations.EmptyImageFaultsAtTheFirstFetch := by
  intro cfg issued
  have hfetch : fetch (resetState cfg [] issued).mem (resetState cfg [] issued).finger = .error .fetchOutOfRange :=
    fetch_outOfRange (Nat.zero_le _)
  exact ⟨_, _, resetWith_nil cfg issued, step_of_fetch_error rfl hfetch, rfl, rfl⟩

/-- Settles O53: every transaction keeps the tokens in order, and only after a step can the block wait for one. -/
theorem everyInputCreatesAFreshToken : Obligations.EveryInputCreatesAFreshToken := by
  intro s u tr htr
  obtain ⟨⟨hcount, hnew⟩, honly⟩ := transact_tokensInOrder htr
  exact ⟨hcount, fun token hwait => ⟨honly.resolve_right fun hnone => hnone token hwait, hnew token hwait⟩⟩

/-- Settles O54: consumption and reset leave the token spent, and every transaction keeps it so. -/
theorem consumedTokenIsNeverAcceptedAgain : Obligations.ConsumedTokenIsNeverAcceptedAgain := by
  intro s t token hinv hended trs u hall v
  have hspent : Block.Spent token (.up t) := by
    rcases hended with ⟨v', hprovide⟩ | ⟨hrun, image, hreset⟩
    · obtain ⟨hrun, rfl⟩ := provideInput_next_cases hprovide
      have hold := State.serial_lt_issued hinv hrun
      exact ⟨hold, by simp⟩
    · have hold := State.serial_lt_issued hinv hrun
      obtain ⟨-, -, rfl⟩ := hostReset_next_cases hreset
      exact ⟨hold, by simp⟩
  obtain ⟨-, hnotPending⟩ := transactAll_induction (P := Block.Spent token) (fun _ _ _ => transact_spent) hspent hall
  exact provideInput_refused hnotPending

end Sys2Proof.Claims
end
